-- ==== Sys2Proof/Word.lean ====
section
/-! DEFINITION. The two word widths of the block (00_scope R5: REG_WIDTH, PAIR_WIDTH, ADDR_WIDTH, PC_WIDTH). -/

namespace Sys2Proof

/-- An 8-bit value: a register, a memory byte, an instruction word. -/
abbrev Byte := BitVec 8

/-- A 16-bit value: a combined view, an address, the program counter. -/
abbrev Pair := BitVec 16

end Sys2Proof
end

