-- ==== Sys2Proof/Syntax.lean ====
section
/-! DEFINITION. The instruction set as an abstract value (30_encoding R45, R48), one constructor per row of
spec/opcode_table.json, and what the driver may do to the block (00_scope R2, 45_dispatcher R113, 40_codec_regfile R70). -/

namespace Sys2Proof

/-- The operand selector: one of the seven plain 8-bit registers (30_encoding R48; F is not one, 90_conflicts C1). -/
inductive Target where
  | a | b | c | d | e | h | l
deriving DecidableEq, Repr

/-- The eleven operations that carry a target (00_scope R3, 30_encoding R45); CCF, the twelfth, has none (90_conflicts C9). -/
inductive Op where
  | add | adc | addhl | and | or | xor | sub | sbc | cp | inc | dec
deriving DecidableEq, Repr

/-- The 78 instructions of 30_encoding R52, in the opcode table's order. -/
inductive Instr where
  | addA | addB | addC | addD | addE | addH | addL
  | adcA | adcB | adcC | adcD | adcE | adcH | adcL
  | addhlA | addhlB | addhlC | addhlD | addhlE | addhlH | addhlL
  | andA | andB | andC | andD | andE | andH | andL
  | orA | orB | orC | orD | orE | orH | orL
  | xorA | xorB | xorC | xorD | xorE | xorH | xorL
  | subA | subB | subC | subD | subE | subH | subL
  | sbcA | sbcB | sbcC | sbcD | sbcE | sbcH | sbcL
  | cpA | cpB | cpC | cpD | cpE | cpH | cpL
  | incA | incB | incC | incD | incE | incH | incL
  | decA | decB | decC | decD | decE | decH | decL
  | ccf
deriving DecidableEq, Repr

/-- The inputs the block samples at one rising edge of `clk` (45_dispatcher R113, 40_codec_regfile R70). -/
structure Pins where
  /-- `rst`: reset, with priority over everything (70_reset_and_hazards R135). -/
  rst : Bool
  /-- `instr_valid`: execute `instr` in this cycle. -/
  instrValid : Bool
  /-- `instr`: the instruction word, ignored when `instr_valid` is 0. -/
  instr : Byte
  /-- `hw_valid`: perform one host set operation in this cycle. -/
  hwValid : Bool
  /-- `hw_sel`: which set operation. -/
  hwSel : BitVec 4
  /-- `hw_data`: the value of the set operation. -/
  hwData : Pair
deriving DecidableEq, Repr

/-- One action of the driver, indivisible (20_memory R39): a clock edge with its inputs, or the host operation
`read_byte` (20_memory R31), which belongs to no edge since it changes no state (60_exceptions R124).
DESIGN CHOICE (log entry 4), safe. -/
inductive DriverOp where
  | clock (p : Pins)
  | readByte (addr : Pair)
deriving DecidableEq, Repr

/-- A cycle with nothing asked of the block (45_dispatcher R113). -/
def Pins.idle : Pins := ⟨false, false, 0, false, 0, 0⟩

/-- A cycle that presents one instruction word (45_dispatcher R113). -/
def Pins.execute (iw : Byte) : Pins := ⟨false, true, iw, false, 0, 0⟩

/-- A cycle that asks for one host set operation (40_codec_regfile R70). -/
def Pins.hostSet (sel : BitVec 4) (v : Pair) : Pins := ⟨false, false, 0, true, sel, v⟩

/-- A reset cycle (70_reset_and_hazards R135). -/
def Pins.reset : Pins := ⟨true, false, 0, false, 0, 0⟩

end Sys2Proof
end

