-- ==== Sys2Proof/WellFormed.lean ====
section
/-! DEFINITION. Which instruction words are defined, said field by field (30_encoding R46, R47, R49, R50, R52), and the
driver's obligations (70_reset_and_hazards R138). Every value of `Instr` is a well-formed instruction: the target is part
of the constructor (30_encoding R45, R48), so no check on `Instr` itself is left. -/

namespace Sys2Proof

/-- Bit 3 of the word must be 0 (30_encoding R46). -/
def bitThreeClear (iw : Byte) : Bool := !iw.getLsbD 3

/-- The `op` field names one of the twelve operations (30_encoding R47). -/
def opAssigned (iw : Byte) : Bool := decide (iw.toNat / 16 ≤ 11)

/-- The `tgt` field is not the reserved value 7, for an operation that has a target (30_encoding R49). -/
def targetNamed (iw : Byte) : Bool := decide (iw.toNat / 16 = 11) || decide (iw.toNat % 8 ≠ 7)

/-- CCF's `tgt` field must be 0 (30_encoding R49, 90_conflicts C9). -/
def ccfTargetZero (iw : Byte) : Bool := decide (iw.toNat / 16 ≠ 11) || decide (iw.toNat % 8 = 0)

/-- The word is one of the 78 defined ones (30_encoding R52); every other word is reserved (R50). -/
def wordDefined (iw : Byte) : Bool := bitThreeClear iw && opAssigned iw && targetNamed iw && ccfTargetZero iw

/-- The driver does not ask for a step and a host set in one cycle (40_codec_regfile R71), unless `rst` overrides both (R135). -/
def Pins.exclusive (p : Pins) : Bool := p.rst || !(p.instrValid && p.hwValid)

/-- A word presented for execution is a defined one (70_reset_and_hazards R138). -/
def Pins.presentsDefined (p : Pins) : Bool := p.rst || !p.instrValid || wordDefined p.instr

/-- The driver keeps its three obligations of 70_reset_and_hazards R138. -/
def DriverOp.wellFormed (memSize : Nat) : DriverOp → Bool
  | .clock p => p.exclusive && p.presentsDefined
  | .readByte addr => decide (addr.toNat < memSize)

end Sys2Proof
end

