-- ==== Sys2Proof/Decode.lean ====
section
/-! DEFINITION. The decoder of the 8-bit instruction word (30_encoding R46, R47, R49, R50, R52), total, a reserved word
rejected by the reason it is reserved, and the encoder. -/

namespace Sys2Proof

/-- Why a word is reserved: the four classes of 30_encoding R50. -/
inductive Reserved where
  /-- Bit 3 is 1 (128 words). -/
  | mustBeZeroBit
  /-- Bit 3 is 0 and `op` is 0xC to 0xF (32 words). -/
  | operation
  /-- Bit 3 is 0, `op` is 0x0 to 0xA and `tgt` is 7 (11 words). -/
  | target
  /-- 0xB1 to 0xB7 (7 words). -/
  | ccfTarget
deriving DecidableEq, Repr

/-- `op = iw[7:4]` (30_encoding R46). -/
def opField (iw : Byte) : BitVec 4 := iw.extractLsb' 4 4

/-- `z = iw[3]` (30_encoding R46). -/
def zField (iw : Byte) : Bool := iw.getLsbD 3

/-- `tgt = iw[2:0]` (30_encoding R46). -/
def tgtField (iw : Byte) : BitVec 3 := iw.extractLsb' 0 3

/-- The target codes of 30_encoding R49, in the source's order of the registers. -/
def targetOf (code : BitVec 3) : Option Target :=
  match code.toNat with
  | 0 => some .a
  | 1 => some .b
  | 2 => some .c
  | 3 => some .d
  | 4 => some .e
  | 5 => some .h
  | 6 => some .l
  | _ => none

/-- The operation codes of 30_encoding R47 that take a target (0xB, CCF, takes none). -/
def opOf (code : BitVec 4) : Option Op :=
  match code.toNat with
  | 0 => some .add
  | 1 => some .adc
  | 2 => some .addhl
  | 3 => some .and
  | 4 => some .or
  | 5 => some .xor
  | 6 => some .sub
  | 7 => some .sbc
  | 8 => some .cp
  | 9 => some .inc
  | 10 => some .dec
  | _ => none

/-- The instruction of an operation and a target. -/
def instrOf : Op → Target → Instr
  | .add, .a => .addA
  | .add, .b => .addB
  | .add, .c => .addC
  | .add, .d => .addD
  | .add, .e => .addE
  | .add, .h => .addH
  | .add, .l => .addL
  | .adc, .a => .adcA
  | .adc, .b => .adcB
  | .adc, .c => .adcC
  | .adc, .d => .adcD
  | .adc, .e => .adcE
  | .adc, .h => .adcH
  | .adc, .l => .adcL
  | .addhl, .a => .addhlA
  | .addhl, .b => .addhlB
  | .addhl, .c => .addhlC
  | .addhl, .d => .addhlD
  | .addhl, .e => .addhlE
  | .addhl, .h => .addhlH
  | .addhl, .l => .addhlL
  | .and, .a => .andA
  | .and, .b => .andB
  | .and, .c => .andC
  | .and, .d => .andD
  | .and, .e => .andE
  | .and, .h => .andH
  | .and, .l => .andL
  | .or, .a => .orA
  | .or, .b => .orB
  | .or, .c => .orC
  | .or, .d => .orD
  | .or, .e => .orE
  | .or, .h => .orH
  | .or, .l => .orL
  | .xor, .a => .xorA
  | .xor, .b => .xorB
  | .xor, .c => .xorC
  | .xor, .d => .xorD
  | .xor, .e => .xorE
  | .xor, .h => .xorH
  | .xor, .l => .xorL
  | .sub, .a => .subA
  | .sub, .b => .subB
  | .sub, .c => .subC
  | .sub, .d => .subD
  | .sub, .e => .subE
  | .sub, .h => .subH
  | .sub, .l => .subL
  | .sbc, .a => .sbcA
  | .sbc, .b => .sbcB
  | .sbc, .c => .sbcC
  | .sbc, .d => .sbcD
  | .sbc, .e => .sbcE
  | .sbc, .h => .sbcH
  | .sbc, .l => .sbcL
  | .cp, .a => .cpA
  | .cp, .b => .cpB
  | .cp, .c => .cpC
  | .cp, .d => .cpD
  | .cp, .e => .cpE
  | .cp, .h => .cpH
  | .cp, .l => .cpL
  | .inc, .a => .incA
  | .inc, .b => .incB
  | .inc, .c => .incC
  | .inc, .d => .incD
  | .inc, .e => .incE
  | .inc, .h => .incH
  | .inc, .l => .incL
  | .dec, .a => .decA
  | .dec, .b => .decB
  | .dec, .c => .decC
  | .dec, .d => .decD
  | .dec, .e => .decE
  | .dec, .h => .decH
  | .dec, .l => .decL

/-- The decoder of the instruction port (30_encoding R46 to R52): one word, one instruction, no other format. -/
def decode (iw : Byte) : Except Reserved Instr :=
  if zField iw then .error .mustBeZeroBit
  else if opField iw = 0xB then
    if tgtField iw = 0 then .ok .ccf else .error .ccfTarget
  else match opOf (opField iw), targetOf (tgtField iw) with
    | none, _ => .error .operation
    | some _, none => .error .target
    | some o, some t => .ok (instrOf o t)

/-- The word of each instruction, from the table of 30_encoding R52. -/
def encode : Instr → Byte
  | .addA => 0x00
  | .addB => 0x01
  | .addC => 0x02
  | .addD => 0x03
  | .addE => 0x04
  | .addH => 0x05
  | .addL => 0x06
  | .adcA => 0x10
  | .adcB => 0x11
  | .adcC => 0x12
  | .adcD => 0x13
  | .adcE => 0x14
  | .adcH => 0x15
  | .adcL => 0x16
  | .addhlA => 0x20
  | .addhlB => 0x21
  | .addhlC => 0x22
  | .addhlD => 0x23
  | .addhlE => 0x24
  | .addhlH => 0x25
  | .addhlL => 0x26
  | .andA => 0x30
  | .andB => 0x31
  | .andC => 0x32
  | .andD => 0x33
  | .andE => 0x34
  | .andH => 0x35
  | .andL => 0x36
  | .orA => 0x40
  | .orB => 0x41
  | .orC => 0x42
  | .orD => 0x43
  | .orE => 0x44
  | .orH => 0x45
  | .orL => 0x46
  | .xorA => 0x50
  | .xorB => 0x51
  | .xorC => 0x52
  | .xorD => 0x53
  | .xorE => 0x54
  | .xorH => 0x55
  | .xorL => 0x56
  | .subA => 0x60
  | .subB => 0x61
  | .subC => 0x62
  | .subD => 0x63
  | .subE => 0x64
  | .subH => 0x65
  | .subL => 0x66
  | .sbcA => 0x70
  | .sbcB => 0x71
  | .sbcC => 0x72
  | .sbcD => 0x73
  | .sbcE => 0x74
  | .sbcH => 0x75
  | .sbcL => 0x76
  | .cpA => 0x80
  | .cpB => 0x81
  | .cpC => 0x82
  | .cpD => 0x83
  | .cpE => 0x84
  | .cpH => 0x85
  | .cpL => 0x86
  | .incA => 0x90
  | .incB => 0x91
  | .incC => 0x92
  | .incD => 0x93
  | .incE => 0x94
  | .incH => 0x95
  | .incL => 0x96
  | .decA => 0xA0
  | .decB => 0xA1
  | .decC => 0xA2
  | .decD => 0xA3
  | .decE => 0xA4
  | .decH => 0xA5
  | .decL => 0xA6
  | .ccf => 0xB0

/-- The first word of an instruction whose bits are `w`, `nbits` of them given and the rest 0. An instruction is exactly
one 8-bit word (30_encoding R46), so any further byte would belong to the next one. -/
def firstWord (nbits w : Nat) : Byte := BitVec.ofNat 8 (w % 2 ^ nbits)

/-- What the decoder reads from the bits the opcode table gives a row. -/
def decodeTableWord (nbits w : Nat) : Option Instr :=
  match decode (firstWord nbits w) with
  | .ok i => some i
  | .error _ => none

end Sys2Proof
end

