-- ==== Sys2Proof/Config.lean ====
section
/-! DEFINITION. The parameters the spec leaves open (00_scope R5, 93_implementation_defined U5, U6). Their values for this
hardware are `Machine.hardware` (Machine/Params.lean). -/

namespace Sys2Proof

/-- A byte store: (address, byte) pairs, addresses strictly rising, no byte equal to what an unlisted address reads as. -/
abbrev Memory := List Host.Cell

/-- The named parameters of the block. -/
structure Config where
  /-- `HC_CIN`: whether the incoming carry enters the half-carry of ADC and SBC (41_alu_add R84, 43_alu_sub R96). -/
  hcCin : Bool
  /-- `MEM_SIZE`: the number of bytes of the memory surface (20_memory R30). -/
  memSize : Nat
  /-- `MEM_IMAGE`: the memory contents after reset, which the block never changes (20_memory R33, 70_reset_and_hazards R137). -/
  memImage : Memory
deriving DecidableEq, Repr

end Sys2Proof
end

