-- ==== Sys2Proof/Machine/State.lean ====
section
/-! DEFINITION. The architectural state (10_state R10 to R24), the reasons a step can stop, and the state after reset. -/

namespace Sys2Proof.Machine

/-- The flags register: four Booleans, which are the source of truth (10_state R13). -/
structure Flags where
  /-- zero -/
  z : Bool
  /-- subtract -/
  n : Bool
  /-- half_carry -/
  h : Bool
  /-- carry -/
  c : Bool
deriving DecidableEq, Repr

/-- The outputs of the last driver operation, which are not state of the block (10_state R25): the step writes them and
never reads them. DESIGN CHOICE (log entry 3), safe. -/
structure Outputs where
  /-- `unimpl`: the operation was a step with a reserved word (45_dispatcher R112, R113). -/
  unimpl : Bool
  /-- The byte that `read_byte` answered, if that was the operation (20_memory R31). -/
  memData : Option Byte
deriving DecidableEq, Repr

/-- The outputs of an operation that shows nothing. -/
def Outputs.quiet : Outputs := ⟨false, none⟩

/-- The state of the block (10_state, "Nothing else is state"), and beside it the model's own two fields. -/
structure State where
  /-- r[A], the accumulator (10_state R10, R12). -/
  a : Byte
  /-- r[B] (10_state R10). -/
  b : Byte
  /-- r[C] (10_state R10). -/
  c : Byte
  /-- r[D] (10_state R10). -/
  d : Byte
  /-- r[E] (10_state R10). -/
  e : Byte
  /-- r[H] (10_state R10). -/
  h : Byte
  /-- r[L] (10_state R10). -/
  l : Byte
  /-- The flags register F (10_state R13). -/
  f : Flags
  /-- The program counter, which nothing in the block moves (10_state R20). -/
  pc : Pair
  /-- The memory surface (10_state R21), an unlisted address holding zero (R24). -/
  mem : Memory
  /-- The driver's operations not yet taken, first one first: the environment, not state of the block (00_scope R2).
  DESIGN CHOICE (log entry 1), safe. -/
  pending : List DriverOp
  /-- The outputs of the last operation: not state of the block (10_state R25). -/
  out : Outputs
deriving DecidableEq, Repr

/-- Why the machine stops with a fault. -/
inductive Fault where
  /-- Raised by the host operation `read_byte` at an address at or above `MEM_SIZE` (20_memory R32, 60_exceptions R122);
  no state changes and no value is given. Safe: the run stops, as 93_implementation_defined U2 asks. -/
  | memFault (addr : Pair)
deriving DecidableEq, Repr

/-- Why the machine has no meaning for what it was given. -/
inductive Refusal where
  /-- Raised by an arm of `exec` without a meaning. No arm is without one, so nothing raises it. Safe. -/
  | notModelled (mnemonic : String)
  /-- Raised by a clock edge with `instr_valid` and `hw_valid` both 1 and `rst` 0, whose behaviour the spec does not
  define (40_codec_regfile R71, 93_implementation_defined U4). Safe: the run stops where the hardware goes on. -/
  | hostSetWithStep
deriving DecidableEq, Repr

/-- The state after reset with a given memory image (10_state R24, 70_reset_and_hazards R135, R137). -/
def State.resetWith (image : Memory) : State where
  a := 0
  b := 0
  c := 0
  d := 0
  e := 0
  h := 0
  l := 0
  f := ⟨false, false, false, false⟩
  pc := 0
  mem := image
  pending := []
  out := Outputs.quiet

/-- The state after reset (10_state R24): every register 0, every flag false, `pc` 0, memory zero-filled. -/
def State.reset : State := State.resetWith []

end Sys2Proof.Machine
end

