-- ==== Sys2Proof/Machine/Flags.lean ====
section
/-! DEFINITION. Wrap-around, the flag computations (41_alu_add R81, R82) and the flags codec (40_codec_regfile R60 to R63). -/

namespace Sys2Proof.Machine

/-- `wrap_8(x) = x mod 256`, the non-negative residue (00_scope section 5.1). -/
def wrap8 (x : Int) : Byte := BitVec.ofInt 8 x

/-- `wrap_16(x) = x mod 65536` (00_scope section 5.1). -/
def wrap16 (x : Int) : Pair := BitVec.ofInt 16 x

/-- `x & 0xF` as a number. -/
def lowNibble (x : Byte) : Nat := (x &&& 0xF).toNat

/-- `bit(p)`: 1 for true, 0 for false (00_scope section 5.1). -/
def bit (p : Bool) : Nat := p.toNat

/-- `hc_add(x, y)`, the ADD row's nibble rule (41_alu_add R82). -/
def hcAdd (x y : Byte) : Bool := decide (lowNibble x + lowNibble y > 0xF)

/-- `hc_sub(x, y)`, the SUB row's nibble rule (41_alu_add R82). -/
def hcSub (x y : Byte) : Bool := decide (lowNibble y > lowNibble x)

/-- The half-carry of ADC under the parameter `HC_CIN` (41_alu_add R84). -/
def hcAdc (hcCin : Bool) (x y : Byte) (cin : Nat) : Bool :=
  if hcCin then decide (lowNibble x + lowNibble y + cin > 0xF) else hcAdd x y

/-- The half-carry of SBC under the parameter `HC_CIN` (43_alu_sub R96). -/
def hcSbc (hcCin : Bool) (x y : Byte) (cin : Nat) : Bool :=
  if hcCin then decide (lowNibble y + cin > lowNibble x) else hcSub x y

/-- `encode(f)`: the packed flags byte, zero in bit 7 down to carry in bit 4, low nibble 0 (40_codec_regfile R60, 10_state R14). -/
def encodeFlags (f : Flags) : Byte :=
  BitVec.ofBool f.z ++ BitVec.ofBool f.n ++ BitVec.ofBool f.h ++ BitVec.ofBool f.c ++ (0 : BitVec 4)

/-- `decode(b)`: the four flags of a packed byte, bits 3 to 0 ignored (40_codec_regfile R61). -/
def decodeFlags (b : Byte) : Flags :=
  ⟨b.getLsbD 7, b.getLsbD 6, b.getLsbD 5, b.getLsbD 4⟩

/-- `encode16(f)`: the same four bits in a 16-bit value (40_codec_regfile R63). -/
def encodeFlags16 (f : Flags) : Pair := (encodeFlags f).setWidth 16

end Sys2Proof.Machine
end

