-- ==== Sys2Proof/Machine/Params.lean ====
section
/-! DEFINITION. The parameter values of this hardware (00_scope R5). -/

namespace Sys2Proof.Machine

/-- `HC_CIN = 0`, `MEM_SIZE = 65535`, `MEM_IMAGE` all zero (00_scope R5; 92_eei_decisions D7, D8, D9).
UNVERIFIED beyond the spec's own choice of the values (log entry 5), unsafe. -/
def hardware : Config where
  hcCin := false
  memSize := 65535
  memImage := []

end Sys2Proof.Machine
end

