-- ==== Sys2Proof/Machine/Ops.lean ====
section
/-! DEFINITION. The named operations over registers, views, flags, outputs and memory (10_state, 40_codec_regfile,
20_memory). The block has no exception entry and no return (60_exceptions R125), so none stands here. -/

namespace Sys2Proof.Machine

/-- `get(name)` (40_codec_regfile R64). -/
def getReg (t : Target) (s : State) : Byte :=
  match t with
  | .a => s.a
  | .b => s.b
  | .c => s.c
  | .d => s.d
  | .e => s.e
  | .h => s.h
  | .l => s.l

/-- `set(name, value)`: that register and nothing else (40_codec_regfile R65). -/
def setReg (t : Target) (v : Byte) (s : State) : State :=
  match t with
  | .a => { s with a := v }
  | .b => { s with b := v }
  | .c => { s with c := v }
  | .d => { s with d := v }
  | .e => { s with e := v }
  | .h => { s with h := v }
  | .l => { s with l := v }

/-- `F <- (z, n, h, c)`: all four flags (00_scope section 5.2). -/
def setFlags (f : Flags) (s : State) : State := { s with f := f }

/-- The high byte of a pair, `v[15:8]`. -/
def highByte (v : Pair) : Byte := v.extractLsb' 8 8

/-- The low byte of a pair, `v[7:0]`. -/
def lowByte (v : Pair) : Byte := v.extractLsb' 0 8

/-- `get_bc()`: B high, C low (10_state R16, 40_codec_regfile R66). -/
def getBC (s : State) : Pair := s.b ++ s.c

/-- `get_de()`: D high, E low (10_state R16, 40_codec_regfile R66). -/
def getDE (s : State) : Pair := s.d ++ s.e

/-- `get_hl()`: H high, L low (10_state R16, 40_codec_regfile R66). -/
def getHL (s : State) : Pair := s.h ++ s.l

/-- `get_af()`: A high, the packed flags low (10_state R18, 40_codec_regfile R68). -/
def getAF (s : State) : Pair := ((s.a.setWidth 16) <<< 8) ||| encodeFlags16 s.f

/-- `set_bc(v)` (10_state R17, 40_codec_regfile R67). -/
def setBC (v : Pair) (s : State) : State := { s with b := highByte v, c := lowByte v }

/-- `set_de(v)` (10_state R17, 40_codec_regfile R67). -/
def setDE (v : Pair) (s : State) : State := { s with d := highByte v, e := lowByte v }

/-- `set_hl(v)` (10_state R17, 40_codec_regfile R67). -/
def setHL (v : Pair) (s : State) : State := { s with h := highByte v, l := lowByte v }

/-- `set_af(v)`: the low byte goes through the flags codec (10_state R19, 40_codec_regfile R69). -/
def setAF (v : Pair) (s : State) : State := { s with a := highByte v, f := decodeFlags (lowByte v) }

/-- The host write port's choice of a set operation; `hw_sel` 7 and 12 to 15 select nothing (40_codec_regfile R70). -/
def hostSet (sel : BitVec 4) (v : Pair) (s : State) : State :=
  match sel.toNat with
  | 0 => setReg .a (lowByte v) s
  | 1 => setReg .b (lowByte v) s
  | 2 => setReg .c (lowByte v) s
  | 3 => setReg .d (lowByte v) s
  | 4 => setReg .e (lowByte v) s
  | 5 => setReg .h (lowByte v) s
  | 6 => setReg .l (lowByte v) s
  | 8 => setAF v s
  | 9 => setBC v s
  | 10 => setDE v s
  | 11 => setHL v s
  | _ => s

/-- The always-driven read outputs of the host port (40_codec_regfile R70). -/
structure ReadPort where
  aO : Byte
  bO : Byte
  cO : Byte
  dO : Byte
  eO : Byte
  hO : Byte
  lO : Byte
  fO : Byte
  afO : Pair
  bcO : Pair
  deO : Pair
  hlO : Pair
  pcO : Pair
deriving DecidableEq, Repr

/-- What the read outputs show in a state; reading changes nothing (40_codec_regfile R70). -/
def readPort (s : State) : ReadPort where
  aO := getReg .a s
  bO := getReg .b s
  cO := getReg .c s
  dO := getReg .d s
  eO := getReg .e s
  hO := getReg .h s
  lO := getReg .l s
  fO := encodeFlags s.f
  afO := getAF s
  bcO := getBC s
  deO := getDE s
  hlO := getHL s
  pcO := s.pc

/-- What an address that the list does not name holds: zero (10_state R24). -/
def unlistedByte : Byte := 0

/-- The byte at an address. -/
def Memory.read : Memory → Nat → Byte
  | [], _ => unlistedByte
  | cell :: rest, addr => if cell.1 = addr then cell.2 else Memory.read rest addr

/-- Put one byte into a memory image, keeping the canonical form. Not an operation of the block, which has no write
(20_memory R33): a platform that supplies `MEM_IMAGE` builds it with this. -/
def Memory.poke (addr : Nat) (v : Byte) : Memory → Memory
  | [] => if v = unlistedByte then [] else [(addr, v)]
  | cell :: rest =>
    if cell.1 < addr then cell :: Memory.poke addr v rest
    else if cell.1 = addr then (if v = unlistedByte then rest else (addr, v) :: rest)
    else if v = unlistedByte then cell :: rest
    else (addr, v) :: cell :: rest

/-- Every listed cell is at or above `low`, the addresses strictly rise, and no cell holds what an unlisted address holds. -/
def Memory.risingFrom : Nat → Memory → Bool
  | _, [] => true
  | low, cell :: rest => decide (low ≤ cell.1) && decide (cell.2 ≠ unlistedByte) && Memory.risingFrom (cell.1 + 1) rest

/-- The canonical form: addresses strictly rising, no entry equal to what an unlisted address reads as. -/
def Memory.wf (m : Memory) : Bool := Memory.risingFrom 0 m

/-- The list names only addresses that exist (20_memory R30). -/
def Memory.within (size : Nat) (m : Memory) : Bool := m.all fun cell => decide (cell.1 < size)

/-- `read_byte(a)`: the byte at `a`, or `MemFault(a)` at or above `MEM_SIZE` (20_memory R31, R32). -/
def readByte (cfg : Config) (addr : Pair) (s : State) : Except Fault Byte :=
  if addr.toNat < cfg.memSize then .ok (Memory.read s.mem addr.toNat) else .error (.memFault addr)

/-- The outputs shown by an operation. -/
def showOutputs (o : Outputs) (s : State) : State := { s with out := o }

/-- The reset event: every piece of state takes its reset value (70_reset_and_hazards R135, R137); the driver's
operations to come are the driver's and stay, and `unimpl` is 0. -/
def applyReset (cfg : Config) (s : State) : State := { State.resetWith cfg.memImage with pending := s.pending }

/-- A step with a reserved word: no state changes and `unimpl` is 1 (45_dispatcher R112). The model goes on, as the
hardware does, and records `unimpl`, the second of the two ways 93_implementation_defined U1 offers.
DESIGN CHOICE (log entry 2), unsafe. -/
def unimplemented (s : State) : State := showOutputs ⟨true, none⟩ s

end Sys2Proof.Machine
end

