-- ==== Sys2Proof/Machine/Operands.lean ====
section
/-! DEFINITION. Operand fetch, from the state before the operation (41_alu_add R80), and the write-back forms of the
dispatcher's mapping (45_dispatcher R111). -/

namespace Sys2Proof.Machine

/-- `value = r[tgt]`, the raw operand (41_alu_add R80). -/
def operand (t : Target) (s : State) : Byte := getReg t s

/-- `a = r[A]`, the accumulator before the operation (41_alu_add R80). -/
def accumulator (s : State) : Byte := getReg .a s

/-- `cin = bit(F.c)`, the carry before the operation (41_alu_add R80). -/
def carryIn (s : State) : Nat := bit s.f.c

/-- The result goes to `dest` and all four flags are written, together (41_alu_add R80). -/
def writeBack (dest : Target) (res : Byte) (f : Flags) (s : State) : State := setFlags f (setReg dest res s)

/-- The 16-bit result goes to HL and all four flags are written, together (41_alu_add R85). -/
def writeBackHL (res : Pair) (f : Flags) (s : State) : State := setFlags f (setHL res s)

end Sys2Proof.Machine
end

