-- ==== Sys2Proof/Machine/Add.lean ====
section
/-! DEFINITION. The additions ADD, ADC, ADDHL (41_alu_add R83, R84, R85). -/

namespace Sys2Proof.Machine

/-- ADD(tgt): `r[A] <- wrap_8(a + value)` (41_alu_add R83). -/
def runAdd (t : Target) (s : State) : Host.Outcome State Fault Refusal :=
  let a := accumulator s
  let v := operand t s
  let sum : Nat := a.toNat + v.toNat
  let res := wrap8 sum
  .next (writeBack .a res ⟨decide (res = 0), false, hcAdd a v, decide (sum > 255)⟩ s)

/-- ADD(A), R83. -/
def execAddA (s : State) : Host.Outcome State Fault Refusal := runAdd .a s

/-- ADD(B), R83. -/
def execAddB (s : State) : Host.Outcome State Fault Refusal := runAdd .b s

/-- ADD(C), R83. -/
def execAddC (s : State) : Host.Outcome State Fault Refusal := runAdd .c s

/-- ADD(D), R83. -/
def execAddD (s : State) : Host.Outcome State Fault Refusal := runAdd .d s

/-- ADD(E), R83. -/
def execAddE (s : State) : Host.Outcome State Fault Refusal := runAdd .e s

/-- ADD(H), R83. -/
def execAddH (s : State) : Host.Outcome State Fault Refusal := runAdd .h s

/-- ADD(L), R83. -/
def execAddL (s : State) : Host.Outcome State Fault Refusal := runAdd .l s

/-- ADC(tgt): `r[A] <- wrap_8(a + value + cin)`, one computation (41_alu_add R84); the half-carry as `HC_CIN` says. -/
def runAdc (cfg : Config) (t : Target) (s : State) : Host.Outcome State Fault Refusal :=
  let a := accumulator s
  let v := operand t s
  let cin := carryIn s
  let sum : Nat := a.toNat + v.toNat + cin
  let res := wrap8 sum
  .next (writeBack .a res ⟨decide (res = 0), false, hcAdc cfg.hcCin a v cin, decide (sum > 255)⟩ s)

/-- ADC(A), R84. -/
def execAdcA (s : State) : Host.Outcome State Fault Refusal := runAdc hardware .a s

/-- ADC(B), R84. -/
def execAdcB (s : State) : Host.Outcome State Fault Refusal := runAdc hardware .b s

/-- ADC(C), R84. -/
def execAdcC (s : State) : Host.Outcome State Fault Refusal := runAdc hardware .c s

/-- ADC(D), R84. -/
def execAdcD (s : State) : Host.Outcome State Fault Refusal := runAdc hardware .d s

/-- ADC(E), R84. -/
def execAdcE (s : State) : Host.Outcome State Fault Refusal := runAdc hardware .e s

/-- ADC(H), R84. -/
def execAdcH (s : State) : Host.Outcome State Fault Refusal := runAdc hardware .h s

/-- ADC(L), R84. -/
def execAdcL (s : State) : Host.Outcome State Fault Refusal := runAdc hardware .l s

/-- ADDHL(tgt): `HL <- wrap_16(hl + value)`, zero from all 16 bits, half-carry from A and the operand (41_alu_add R85,
90_conflicts C10). -/
def runAddhl (t : Target) (s : State) : Host.Outcome State Fault Refusal :=
  let a := accumulator s
  let v := operand t s
  let sum : Nat := (getHL s).toNat + v.toNat
  let res := wrap16 sum
  .next (writeBackHL res ⟨decide (res = 0), false, hcAdd a v, decide (sum > 65535)⟩ s)

/-- ADDHL(A), R85. -/
def execAddhlA (s : State) : Host.Outcome State Fault Refusal := runAddhl .a s

/-- ADDHL(B), R85. -/
def execAddhlB (s : State) : Host.Outcome State Fault Refusal := runAddhl .b s

/-- ADDHL(C), R85. -/
def execAddhlC (s : State) : Host.Outcome State Fault Refusal := runAddhl .c s

/-- ADDHL(D), R85. -/
def execAddhlD (s : State) : Host.Outcome State Fault Refusal := runAddhl .d s

/-- ADDHL(E), R85. -/
def execAddhlE (s : State) : Host.Outcome State Fault Refusal := runAddhl .e s

/-- ADDHL(H), R85. -/
def execAddhlH (s : State) : Host.Outcome State Fault Refusal := runAddhl .h s

/-- ADDHL(L), R85. -/
def execAddhlL (s : State) : Host.Outcome State Fault Refusal := runAddhl .l s

end Sys2Proof.Machine
end

