-- ==== Sys2Proof/Machine/IncDec.lean ====
section
/-! DEFINITION. Increment, decrement and carry complement: INC, DEC, CCF (44_alu_incdec_ccf R100, R101, R102). -/

namespace Sys2Proof.Machine

/-- INC(tgt): `r[tgt] <- wrap_8(value + 1)`, carry kept (44_alu_incdec_ccf R100, 90_conflicts C4). -/
def runInc (t : Target) (s : State) : Host.Outcome State Fault Refusal :=
  let v := operand t s
  let res := wrap8 ((v.toNat : Int) + 1)
  .next (writeBack t res ⟨decide (res = 0), false, hcAdd v 1, s.f.c⟩ s)

/-- INC(A), R100. -/
def execIncA (s : State) : Host.Outcome State Fault Refusal := runInc .a s

/-- INC(B), R100. -/
def execIncB (s : State) : Host.Outcome State Fault Refusal := runInc .b s

/-- INC(C), R100. -/
def execIncC (s : State) : Host.Outcome State Fault Refusal := runInc .c s

/-- INC(D), R100. -/
def execIncD (s : State) : Host.Outcome State Fault Refusal := runInc .d s

/-- INC(E), R100. -/
def execIncE (s : State) : Host.Outcome State Fault Refusal := runInc .e s

/-- INC(H), R100. -/
def execIncH (s : State) : Host.Outcome State Fault Refusal := runInc .h s

/-- INC(L), R100. -/
def execIncL (s : State) : Host.Outcome State Fault Refusal := runInc .l s

/-- DEC(tgt): `r[tgt] <- wrap_8(value - 1)`, carry kept (44_alu_incdec_ccf R101, 90_conflicts C4). -/
def runDec (t : Target) (s : State) : Host.Outcome State Fault Refusal :=
  let v := operand t s
  let res := wrap8 ((v.toNat : Int) - 1)
  .next (writeBack t res ⟨decide (res = 0), true, hcSub v 1, s.f.c⟩ s)

/-- DEC(A), R101. -/
def execDecA (s : State) : Host.Outcome State Fault Refusal := runDec .a s

/-- DEC(B), R101. -/
def execDecB (s : State) : Host.Outcome State Fault Refusal := runDec .b s

/-- DEC(C), R101. -/
def execDecC (s : State) : Host.Outcome State Fault Refusal := runDec .c s

/-- DEC(D), R101. -/
def execDecD (s : State) : Host.Outcome State Fault Refusal := runDec .d s

/-- DEC(E), R101. -/
def execDecE (s : State) : Host.Outcome State Fault Refusal := runDec .e s

/-- DEC(H), R101. -/
def execDecH (s : State) : Host.Outcome State Fault Refusal := runDec .h s

/-- DEC(L), R101. -/
def execDecL (s : State) : Host.Outcome State Fault Refusal := runDec .l s

/-- CCF: `F.c <- !F.c`, nothing else (44_alu_incdec_ccf R102). -/
def execCcf (s : State) : Host.Outcome State Fault Refusal := .next (setFlags { s.f with c := !s.f.c } s)

end Sys2Proof.Machine
end

