-- ==== Sys2Proof/Machine/Logic.lean ====
section
/-! DEFINITION. The bitwise operations AND, OR, XOR (42_alu_logic R90, R91, R92). -/

namespace Sys2Proof.Machine

/-- AND(tgt): `r[A] <- a & value`, half-carry true, carry false (42_alu_logic R90). -/
def runAnd (t : Target) (s : State) : Host.Outcome State Fault Refusal :=
  let res := accumulator s &&& operand t s
  .next (writeBack .a res ⟨decide (res = 0), false, true, false⟩ s)

/-- AND(A), R90. -/
def execAndA (s : State) : Host.Outcome State Fault Refusal := runAnd .a s

/-- AND(B), R90. -/
def execAndB (s : State) : Host.Outcome State Fault Refusal := runAnd .b s

/-- AND(C), R90. -/
def execAndC (s : State) : Host.Outcome State Fault Refusal := runAnd .c s

/-- AND(D), R90. -/
def execAndD (s : State) : Host.Outcome State Fault Refusal := runAnd .d s

/-- AND(E), R90. -/
def execAndE (s : State) : Host.Outcome State Fault Refusal := runAnd .e s

/-- AND(H), R90. -/
def execAndH (s : State) : Host.Outcome State Fault Refusal := runAnd .h s

/-- AND(L), R90. -/
def execAndL (s : State) : Host.Outcome State Fault Refusal := runAnd .l s

/-- OR(tgt): `r[A] <- a | value`, half-carry false, carry false (42_alu_logic R91). -/
def runOr (t : Target) (s : State) : Host.Outcome State Fault Refusal :=
  let res := accumulator s ||| operand t s
  .next (writeBack .a res ⟨decide (res = 0), false, false, false⟩ s)

/-- OR(A), R91. -/
def execOrA (s : State) : Host.Outcome State Fault Refusal := runOr .a s

/-- OR(B), R91. -/
def execOrB (s : State) : Host.Outcome State Fault Refusal := runOr .b s

/-- OR(C), R91. -/
def execOrC (s : State) : Host.Outcome State Fault Refusal := runOr .c s

/-- OR(D), R91. -/
def execOrD (s : State) : Host.Outcome State Fault Refusal := runOr .d s

/-- OR(E), R91. -/
def execOrE (s : State) : Host.Outcome State Fault Refusal := runOr .e s

/-- OR(H), R91. -/
def execOrH (s : State) : Host.Outcome State Fault Refusal := runOr .h s

/-- OR(L), R91. -/
def execOrL (s : State) : Host.Outcome State Fault Refusal := runOr .l s

/-- XOR(tgt): `r[A] <- a ^ value`, half-carry false, carry false (42_alu_logic R92). -/
def runXor (t : Target) (s : State) : Host.Outcome State Fault Refusal :=
  let res := accumulator s ^^^ operand t s
  .next (writeBack .a res ⟨decide (res = 0), false, false, false⟩ s)

/-- XOR(A), R92. -/
def execXorA (s : State) : Host.Outcome State Fault Refusal := runXor .a s

/-- XOR(B), R92. -/
def execXorB (s : State) : Host.Outcome State Fault Refusal := runXor .b s

/-- XOR(C), R92. -/
def execXorC (s : State) : Host.Outcome State Fault Refusal := runXor .c s

/-- XOR(D), R92. -/
def execXorD (s : State) : Host.Outcome State Fault Refusal := runXor .d s

/-- XOR(E), R92. -/
def execXorE (s : State) : Host.Outcome State Fault Refusal := runXor .e s

/-- XOR(H), R92. -/
def execXorH (s : State) : Host.Outcome State Fault Refusal := runXor .h s

/-- XOR(L), R92. -/
def execXorL (s : State) : Host.Outcome State Fault Refusal := runXor .l s

end Sys2Proof.Machine
end

