-- ==== Sys2Proof/Machine/Sub.lean ====
section
/-! DEFINITION. The subtractions SUB, SBC and the compare CP (43_alu_sub R95, R96, R97). -/

namespace Sys2Proof.Machine

/-- The result and the flags of `a - value`, shared by SUB and CP (43_alu_sub R95, R97). -/
def subtract (a v : Byte) : Byte × Flags :=
  let diff : Int := (a.toNat : Int) - v.toNat
  let res := wrap8 diff
  (res, ⟨decide (res = 0), true, hcSub a v, decide (diff < 0)⟩)

/-- SUB(tgt): `r[A] <- wrap_8(a - value)` (43_alu_sub R95). -/
def runSub (t : Target) (s : State) : Host.Outcome State Fault Refusal :=
  let r := subtract (accumulator s) (operand t s)
  .next (writeBack .a r.1 r.2 s)

/-- SUB(A), R95. -/
def execSubA (s : State) : Host.Outcome State Fault Refusal := runSub .a s

/-- SUB(B), R95. -/
def execSubB (s : State) : Host.Outcome State Fault Refusal := runSub .b s

/-- SUB(C), R95. -/
def execSubC (s : State) : Host.Outcome State Fault Refusal := runSub .c s

/-- SUB(D), R95. -/
def execSubD (s : State) : Host.Outcome State Fault Refusal := runSub .d s

/-- SUB(E), R95. -/
def execSubE (s : State) : Host.Outcome State Fault Refusal := runSub .e s

/-- SUB(H), R95. -/
def execSubH (s : State) : Host.Outcome State Fault Refusal := runSub .h s

/-- SUB(L), R95. -/
def execSubL (s : State) : Host.Outcome State Fault Refusal := runSub .l s

/-- SBC(tgt): `r[A] <- wrap_8(a - value - cin)`, one computation (43_alu_sub R96); the half-carry as `HC_CIN` says. -/
def runSbc (cfg : Config) (t : Target) (s : State) : Host.Outcome State Fault Refusal :=
  let a := accumulator s
  let v := operand t s
  let cin := carryIn s
  let diff : Int := (a.toNat : Int) - v.toNat - cin
  let res := wrap8 diff
  .next (writeBack .a res ⟨decide (res = 0), true, hcSbc cfg.hcCin a v cin, decide (diff < 0)⟩ s)

/-- SBC(A), R96. -/
def execSbcA (s : State) : Host.Outcome State Fault Refusal := runSbc hardware .a s

/-- SBC(B), R96. -/
def execSbcB (s : State) : Host.Outcome State Fault Refusal := runSbc hardware .b s

/-- SBC(C), R96. -/
def execSbcC (s : State) : Host.Outcome State Fault Refusal := runSbc hardware .c s

/-- SBC(D), R96. -/
def execSbcD (s : State) : Host.Outcome State Fault Refusal := runSbc hardware .d s

/-- SBC(E), R96. -/
def execSbcE (s : State) : Host.Outcome State Fault Refusal := runSbc hardware .e s

/-- SBC(H), R96. -/
def execSbcH (s : State) : Host.Outcome State Fault Refusal := runSbc hardware .h s

/-- SBC(L), R96. -/
def execSbcL (s : State) : Host.Outcome State Fault Refusal := runSbc hardware .l s

/-- CP(tgt): the flags of SUB, no register written (43_alu_sub R97). -/
def runCp (t : Target) (s : State) : Host.Outcome State Fault Refusal :=
  .next (setFlags (subtract (accumulator s) (operand t s)).2 s)

/-- CP(A), R97. -/
def execCpA (s : State) : Host.Outcome State Fault Refusal := runCp .a s

/-- CP(B), R97. -/
def execCpB (s : State) : Host.Outcome State Fault Refusal := runCp .b s

/-- CP(C), R97. -/
def execCpC (s : State) : Host.Outcome State Fault Refusal := runCp .c s

/-- CP(D), R97. -/
def execCpD (s : State) : Host.Outcome State Fault Refusal := runCp .d s

/-- CP(E), R97. -/
def execCpE (s : State) : Host.Outcome State Fault Refusal := runCp .e s

/-- CP(H), R97. -/
def execCpH (s : State) : Host.Outcome State Fault Refusal := runCp .h s

/-- CP(L), R97. -/
def execCpL (s : State) : Host.Outcome State Fault Refusal := runCp .l s

end Sys2Proof.Machine
end

