-- ==== Sys2Proof/Machine/Port.lean ====
section
/-! DEFINITION. The instruction port and the host port: what one operation of the driver does to the block
(45_dispatcher R110, R112, R113; 40_codec_regfile R70, R71; 70_reset_and_hazards R135; 20_memory R31, R32). -/

namespace Sys2Proof.Machine

/-- `execute(iw)`: the instruction the word codes, or the flagged no-op of a reserved word (45_dispatcher R110 to R112). -/
def executeWord (iw : Byte) (s : State) : Host.Outcome State Fault Refusal :=
  match decode iw with
  | .ok i => exec i (showOutputs Outputs.quiet s)
  | .error _ => .next (unimplemented s)

/-- One rising edge of `clk` with its inputs: reset first, then a step, a host set, or an idle cycle in which the state
holds; a step and a host set together have no behaviour (70_reset_and_hazards R135, 45_dispatcher R113, 40_codec_regfile R71). -/
def clockEdge (cfg : Config) (p : Pins) (s : State) : Host.Outcome State Fault Refusal :=
  match p.rst, p.instrValid, p.hwValid with
  | true, _, _ => .next (applyReset cfg s)
  | false, true, true => .refused .hostSetWithStep
  | false, true, false => executeWord p.instr s
  | false, false, true => .next (showOutputs Outputs.quiet (hostSet p.hwSel p.hwData s))
  | false, false, false => .next (showOutputs Outputs.quiet s)

/-- The host operation `read_byte`: the byte is shown, no state changes; or `MemFault` (20_memory R31, R32). -/
def hostRead (cfg : Config) (addr : Pair) (s : State) : Host.Outcome State Fault Refusal :=
  match readByte cfg addr s with
  | .ok v => .next (showOutputs ⟨false, some v⟩ s)
  | .error r => .fault r

/-- One operation of the driver. -/
def runDriverOp (cfg : Config) (op : DriverOp) (s : State) : Host.Outcome State Fault Refusal :=
  match op with
  | .clock p => clockEdge cfg p s
  | .readByte addr => hostRead cfg addr s

/-- The driver's next operation: the first one pending, an idle cycle where it asks for nothing (45_dispatcher R113). -/
def nextDriverOp (s : State) : DriverOp := s.pending.headD (.clock Pins.idle)

/-- The operation is consumed exactly once (45_dispatcher R116). -/
def consumeDriverOp (s : State) : State := { s with pending := s.pending.tail }

/-- The driver's next operation is to present this word (45_dispatcher R113). -/
def presentWord (iw : Byte) (s : State) : State := { s with pending := .clock (Pins.execute iw) :: s.pending }

end Sys2Proof.Machine
end

