-- ==== Sys2Proof/Machine/Step.lean ====
section
/-! DEFINITION. One step: the driver's next operation, taken and performed (00_scope R2, 45_dispatcher R110, R116). -/

namespace Sys2Proof.Machine

/-- One step of the machine. -/
def step (s : State) : Host.Outcome State Fault Refusal := runDriverOp hardware (nextDriverOp s) (consumeDriverOp s)

/-- The driver presents the instruction whose bits are `w` in the very next cycle (45_dispatcher R113, log entry 1). -/
def State.withFetchWord (s : State) (nbits w : Nat) : State := presentWord (firstWord nbits w) s

end Sys2Proof.Machine
end

