-- ==== Sys2Proof/Safety.lean ====
section
/-! DEFINITION. What an operation leaves alone, the invariants of the machine, and what a good run is. -/

namespace Sys2Proof.Machine

/-- Every register outside `dests` keeps its value. -/
def keepsRegs (dests : List Target) (s s' : State) : Prop := ∀ t, t ∉ dests → getReg t s' = getReg t s

/-- Beside registers and flags nothing moves: `pc`, every byte of memory, the driver's operations, the outputs. -/
def keepsRest (s s' : State) : Prop :=
  s'.pc = s.pc ∧ s'.mem = s.mem ∧ (∀ cfg addr, readByte cfg addr s' = readByte cfg addr s) ∧
    s'.pending = s.pending ∧ s'.out = s.out

/-- The memory list is canonical and names only addresses of the surface (20_memory R30). -/
def MemoryCanonical (s : State) : Prop := Memory.wf s.mem = true ∧ Memory.within hardware.memSize s.mem = true

/-- What nothing in the block moves away from reset: `pc` is 0 and every byte of memory is 0 (10_state R20, 20_memory R33). -/
def Untouched (s : State) : Prop :=
  s.pc = 0 ∧ ∀ addr : Pair, addr.toNat < hardware.memSize → readByte hardware addr s = .ok 0

/-- The driver's operations to come all keep its obligations (70_reset_and_hazards R138). -/
def DriverBehaves (s : State) : Prop := ∀ op ∈ s.pending, op.wellFormed hardware.memSize = true

/-- `k` steps that neither stop nor show `unimpl`: the runs about which claims are worth making
(93_implementation_defined U1, U2, U4). -/
def goodRun : Nat → State → Bool
  | 0, _ => true
  | k + 1, s =>
    match step s with
    | .next s' => !s'.out.unimpl && goodRun k s'
    | .fault _ => false
    | .refused _ => false

end Sys2Proof.Machine
end

