-- ==== Sys2Proof/Certificates/Slice0/Obligations.lean ====
section
/-! DEFINITION. The statements about the machine, each from the numbered rules of spec/ that its docstring cites. -/

namespace Sys2Proof.Claims

open Sys2Proof.Machine

/-- The target codes of 30_encoding R49, written apart from the decoder. -/
def targetCode : Target → Nat
  | .a => 0
  | .b => 1
  | .c => 2
  | .d => 3
  | .e => 4
  | .h => 5
  | .l => 6

/-- The operation codes of 30_encoding R47, written apart from the decoder. -/
def opCode : Op → Nat
  | .add => 0x0
  | .adc => 0x1
  | .addhl => 0x2
  | .and => 0x3
  | .or => 0x4
  | .xor => 0x5
  | .sub => 0x6
  | .sbc => 0x7
  | .cp => 0x8
  | .inc => 0x9
  | .dec => 0xA

/-- The word `op ∥ 0 ∥ tgt` of 30_encoding R46, R52. -/
def wordFor (op : Nat) (t : Target) : Byte := BitVec.ofNat 8 (16 * op + targetCode t)

/-- `r[t]` as a number. -/
def regNat (t : Target) (s : State) : Nat := (getReg t s).toNat

/-- `cin` as a number (41_alu_add R80). -/
def carryNat (s : State) : Nat := if s.f.c = true then 1 else 0

/-- What 41_alu_add R84 says an ADC leaves, for a value of `HC_CIN`. -/
def AdcLeaves (hcCin : Bool) (t : Target) (s s' : State) : Prop :=
  let sum := regNat .a s + regNat t s + carryNat s
  let nibbles := regNat .a s % 16 + regNat t s % 16 + (if hcCin = true then carryNat s else 0)
  regNat .a s' = sum % 256 ∧ (s'.f.z = true ↔ sum % 256 = 0) ∧ s'.f.n = false ∧
    (s'.f.h = true ↔ 15 < nibbles) ∧ (s'.f.c = true ↔ 255 < sum) ∧ keepsRegs [.a] s s' ∧ keepsRest s s'

/-- What 43_alu_sub R96 says an SBC leaves, for a value of `HC_CIN`. -/
def SbcLeaves (hcCin : Bool) (t : Target) (s s' : State) : Prop :=
  let diff : Int := (regNat .a s : Int) - regNat t s - carryNat s
  (regNat .a s' : Int) = diff % 256 ∧ (s'.f.z = true ↔ diff % 256 = 0) ∧ s'.f.n = true ∧
    (s'.f.h = true ↔ regNat .a s % 16 < regNat t s % 16 + (if hcCin = true then carryNat s else 0)) ∧
    (s'.f.c = true ↔ diff < 0) ∧ keepsRegs [.a] s s' ∧ keepsRest s s'

/-- The registers each operation writes (45_dispatcher R111, 10_state R26). -/
def destinations (o : Op) (t : Target) : List Target :=
  match o with
  | .add | .adc | .and | .or | .xor | .sub | .sbc => [.a]
  | .addhl => [.h, .l]
  | .cp => []
  | .inc | .dec => [t]

/-- The two states agree on every register. -/
def sameRegs (s s' : State) : Prop := ∀ t, getReg t s' = getReg t s

/-- `MEM[addr]` is `v` in a memory list, said by membership and apart from the model's read: the list names the pair, or names no
byte for the address and `v` is 0 (10_state R24; the list form is log entry 6). -/
def memoryHolds (m : Memory) (addr : Nat) (v : Byte) : Prop :=
  (addr, v) ∈ m ∨ ((∀ b, (addr, b) ∉ m) ∧ v = 0)

/-- The driver's next operation is this clock edge, and `rest` follows. -/
def nextEdge (s : State) (p : Pins) (rest : List DriverOp) : Prop := s.pending = .clock p :: rest

end Sys2Proof.Claims

open Sys2Proof Sys2Proof.Machine Sys2Proof.Claims

/-- 10_state R24: after reset every register, flag, `pc` and memory byte is 0, and so are the views. -/
def Obligations.ResetLeavesAllZero : Prop :=
  (∀ t, getReg t State.reset = 0) ∧
    State.reset.f.z = false ∧ State.reset.f.n = false ∧ State.reset.f.h = false ∧ State.reset.f.c = false ∧
    State.reset.pc = 0 ∧
    (∀ addr : Pair, addr.toNat ≤ 65534 → readByte hardware addr State.reset = .ok 0) ∧
    getAF State.reset = 0 ∧ getBC State.reset = 0 ∧ getDE State.reset = 0 ∧ getHL State.reset = 0

/-- 70_reset_and_hazards R135, R137, 10_state R24: an edge with `rst` = 1 puts every piece of state at its reset value, whatever it held and
whatever the other inputs are, the memory at MEM_IMAGE, and `unimpl` is 0. Where the driver's coming operations stand is
the model's (log entry 1), where `unimpl` is recorded too (log entry 3). -/
def Obligations.ResetEdgeResetsEverything : Prop :=
  ∀ (cfg : Config) (p : Pins) (s : State), p.rst = true →
    ∃ s', clockEdge cfg p s = .next s' ∧ (∀ t, getReg t s' = 0) ∧ s'.f = ⟨false, false, false, false⟩ ∧ s'.pc = 0 ∧
      s'.mem = cfg.memImage ∧ s'.out.unimpl = false ∧ s'.pending = s.pending ∧
      (∀ u, clockEdge cfg p u = .next { s' with pending := u.pending })

/-- 40_codec_regfile R65 (and R64): `set` writes one register; after it `get` answers the value; nothing else changes. -/
def Obligations.SetThenGetRegister : Prop :=
  ∀ (t : Target) (v : Byte) (s : State),
    getReg t (setReg t v s) = v ∧ keepsRegs [t] s (setReg t v s) ∧ (setReg t v s).f = s.f ∧ keepsRest s (setReg t v s)

/-- 10_state R16: each view is 256 times its first register plus its second. -/
def Obligations.PairViewsConcatenate : Prop :=
  ∀ s : State,
    (getBC s).toNat = 256 * regNat .b s + regNat .c s ∧
    (getDE s).toNat = 256 * regNat .d s + regNat .e s ∧
    (getHL s).toNat = 256 * regNat .h s + regNat .l s

/-- 10_state R17, 40_codec_regfile R67: a view write splits the value over its two registers, reads back, and changes nothing else. -/
def Obligations.PairViewWriteReadsBack : Prop :=
  ∀ (v : Pair) (s : State),
    (getBC (setBC v s) = v ∧ regNat .b (setBC v s) = v.toNat / 256 ∧ regNat .c (setBC v s) = v.toNat % 256 ∧
      keepsRegs [.b, .c] s (setBC v s) ∧ (setBC v s).f = s.f ∧ keepsRest s (setBC v s)) ∧
    (getDE (setDE v s) = v ∧ regNat .d (setDE v s) = v.toNat / 256 ∧ regNat .e (setDE v s) = v.toNat % 256 ∧
      keepsRegs [.d, .e] s (setDE v s) ∧ (setDE v s).f = s.f ∧ keepsRest s (setDE v s)) ∧
    (getHL (setHL v s) = v ∧ regNat .h (setHL v s) = v.toNat / 256 ∧ regNat .l (setHL v s) = v.toNat % 256 ∧
      keepsRegs [.h, .l] s (setHL v s) ∧ (setHL v s).f = s.f ∧ keepsRest s (setHL v s))

/-- 10_state R18: AF is A in the high byte and z, n, h, c at bits 7 to 4, the low nibble 0. -/
def Obligations.AfViewPacksAccumulatorAndFlags : Prop :=
  ∀ s : State,
    (getAF s).toNat = 256 * regNat .a s + 128 * s.f.z.toNat + 64 * s.f.n.toNat + 32 * s.f.h.toNat + 16 * s.f.c.toNat ∧
    (getAF s).toNat % 16 = 0 ∧ getAF s = getReg .a s ++ encodeFlags s.f

/-- 10_state R19, 40_codec_regfile R69: `set_af` writes A with the high byte and the flags with bits 7 to 4, drops the low nibble. -/
def Obligations.AfViewWriteDropsLowNibble : Prop :=
  ∀ (v : Pair) (s : State),
    getAF (setAF v s) = v &&& 0xFFF0 ∧ regNat .a (setAF v s) = v.toNat / 256 ∧
    (setAF v s).f = ⟨v.getLsbD 7, v.getLsbD 6, v.getLsbD 5, v.getLsbD 4⟩ ∧ (setAF v s).f = decodeFlags (lowByte v) ∧
    keepsRegs [.a] s (setAF v s) ∧ keepsRest s (setAF v s)

/-- 40_codec_regfile R60, R61, R62: the codec's bit positions and its two round trips; R63: the 16-bit variant. -/
def Obligations.FlagsCodecRoundTrips : Prop :=
  (∀ f : Flags, (encodeFlags f).toNat = 128 * f.z.toNat + 64 * f.n.toNat + 32 * f.h.toNat + 16 * f.c.toNat) ∧
  (∀ b : Byte, decodeFlags b = ⟨b.getLsbD 7, b.getLsbD 6, b.getLsbD 5, b.getLsbD 4⟩) ∧
  (∀ f : Flags, decodeFlags (encodeFlags f) = f) ∧
  (∀ b : Byte, encodeFlags (decodeFlags b) = b &&& 0xF0) ∧
  (∀ f : Flags, (encodeFlags16 f).toNat = (encodeFlags f).toNat)

/-- 40_codec_regfile R70 (its read side), R64, R66, R68: the read outputs show the registers, the packed flags, the views and `pc`. -/
def Obligations.ReadOutputsShowTheState : Prop :=
  ∀ s : State,
    let o := readPort s
    [o.aO, o.bO, o.cO, o.dO, o.eO, o.hO, o.lO] = [Target.a, .b, .c, .d, .e, .h, .l].map (getReg · s) ∧
    o.fO.toNat = 128 * s.f.z.toNat + 64 * s.f.n.toNat + 32 * s.f.h.toNat + 16 * s.f.c.toNat ∧
    o.afO.toNat = 256 * o.aO.toNat + o.fO.toNat ∧ o.bcO.toNat = 256 * o.bO.toNat + o.cO.toNat ∧
    o.deO.toNat = 256 * o.dO.toNat + o.eO.toNat ∧ o.hlO.toNat = 256 * o.hO.toNat + o.lO.toNat ∧ o.pcO = s.pc

/-- 40_codec_regfile R70 (its write side), R65, R67, R69: an edge with `hw_valid` alone performs the set operation `hw_sel` names on
`hw_data`; 7 and 12 to 15 change no state. The record of the outputs is the model's (log entry 3), the driver's queue too (log entry 1). -/
def Obligations.HostWritePortSets : Prop :=
  ∀ (s : State) (p : Pins) (rest : List DriverOp),
    nextEdge s p rest → p.rst = false → p.instrValid = false → p.hwValid = true →
    let base : State := { s with pending := rest, out := ⟨false, none⟩ }
    let low : Byte := BitVec.ofNat 8 p.hwData.toNat
    (∀ t, p.hwSel.toNat = targetCode t → step s = .next (setReg t low base)) ∧
    (p.hwSel = 8 → step s = .next (setAF p.hwData base)) ∧
    (p.hwSel = 9 → step s = .next (setBC p.hwData base)) ∧
    (p.hwSel = 10 → step s = .next (setDE p.hwData base)) ∧
    (p.hwSel = 11 → step s = .next (setHL p.hwData base)) ∧
    (p.hwSel = 7 ∨ 12 ≤ p.hwSel.toNat → step s = .next base)

/-- 40_codec_regfile R71, 93_implementation_defined U4: a host set and a step in one cycle have no transition. -/
def Obligations.HostSetWithStepIsRefused : Prop :=
  ∀ (cfg : Config) (p : Pins) (s : State), p.rst = false → p.instrValid = true → p.hwValid = true →
    clockEdge cfg p s = .refused .hostSetWithStep

/-- 30_encoding R45 to R52: decoding and encoding agree on all 256 words and all 78 instructions. -/
def Obligations.DecodeAndEncodeAgree : Prop :=
  ∀ (w : Byte) (i : Instr), decode w = .ok i ↔ encode i = w

/-- 30_encoding R52: the defined words are `op ∥ 0 ∥ tgt` for `op` 0x0 to 0xA and `tgt` 0 to 6, and 0xB0, and they are 78;
each stands for the operation and the target of the rule's table. -/
def Obligations.DefinedWordsAreThe78 : Prop :=
  (∀ (w : Byte), (∃ i, decode w = .ok i) ↔
    ((∃ op tgt : Nat, op ≤ 10 ∧ tgt ≤ 6 ∧ w.toNat = 16 * op + tgt) ∨ w = 0xB0)) ∧
  (∀ (o : Op) (t : Target), decode (wordFor (opCode o) t) = .ok (instrOf o t)) ∧ decode 0xB0 = .ok .ccf ∧
  ((List.range 256).filter fun n => (decode (BitVec.ofNat 8 n)).isOk).length = 78

/-- 30_encoding R50: the four classes of reserved words, each rejected by its name, and how many words each has. -/
def Obligations.ReservedWordsByClass : Prop :=
  (∀ w : Byte, decode w = .error .mustBeZeroBit ↔ w.toNat / 8 % 2 = 1) ∧
  (∀ w : Byte, decode w = .error .operation ↔ w.toNat / 8 % 2 = 0 ∧ 12 ≤ w.toNat / 16) ∧
  (∀ w : Byte, decode w = .error .target ↔ w.toNat / 8 % 2 = 0 ∧ w.toNat / 16 ≤ 10 ∧ w.toNat % 8 = 7) ∧
  (∀ w : Byte, decode w = .error .ccfTarget ↔ 0xB1 ≤ w.toNat ∧ w.toNat ≤ 0xB7) ∧
  ((List.range 256).filter fun n => decide (decode (BitVec.ofNat 8 n) = .error .mustBeZeroBit)).length = 128 ∧
  ((List.range 256).filter fun n => decide (decode (BitVec.ofNat 8 n) = .error .operation)).length = 32 ∧
  ((List.range 256).filter fun n => decide (decode (BitVec.ofNat 8 n) = .error .target)).length = 11 ∧
  ((List.range 256).filter fun n => decide (decode (BitVec.ofNat 8 n) = .error .ccfTarget)).length = 7

/-- 95_test_vectors section 2.12: words of every family decode to the instruction the spec's table gives. -/
def Obligations.TabledWordsDecode : Prop :=
  decode 0x01 = .ok .addB ∧ decode 0x16 = .ok .adcL ∧ decode 0x21 = .ok .addhlB ∧ decode 0x36 = .ok .andL ∧
  decode 0x45 = .ok .orH ∧ decode 0x53 = .ok .xorD ∧ decode 0x60 = .ok .subA ∧ decode 0x74 = .ok .sbcE ∧
  decode 0x82 = .ok .cpC ∧ decode 0x95 = .ok .incH ∧ decode 0xA6 = .ok .decL ∧ decode 0xB0 = .ok .ccf ∧
  decode 0x3F = .error .mustBeZeroBit ∧ decode 0x07 = .error .target ∧ decode 0xC0 = .error .operation ∧
  decode 0xB1 = .error .ccfTarget

/-- 45_dispatcher R110, R111, R113, R116: an edge that presents a defined word runs its instruction, once, in the state as it stands.
Around `exec` the step takes the operation off the driver's queue (log entry 1) and shows `unimpl` = 0 (log entry 3). -/
def Obligations.StepRunsTheDecodedInstruction : Prop :=
  ∀ (s : State) (p : Pins) (rest : List DriverOp) (i : Instr),
    nextEdge s p rest → p.rst = false → p.instrValid = true → p.hwValid = false → decode p.instr = .ok i →
    step s = exec i { s with pending := rest, out := ⟨false, none⟩ }

/-- 45_dispatcher R112: a reserved word changes no register, no flag, not `pc`, not memory, and shows `unimpl` = 1; a defined word
shows 0; the indication has no effect on later steps. That the model goes on there, as the hardware does, is log entry 2. -/
def Obligations.ReservedWordIsFlaggedNoOp : Prop :=
  (∀ (s : State) (w : Byte) (rest : List DriverOp), nextEdge s (Pins.execute w) rest →
    ((∃ r, decode w = .error r) → step s = .next { s with pending := rest, out := ⟨true, none⟩ }) ∧
    ((∃ i, decode w = .ok i) → ∃ s', step s = .next s' ∧ s'.out.unimpl = false)) ∧
  (∀ (s : State) (o : Outputs), step { s with out := o } = step s)

/-- 45_dispatcher R110: `execute` ends in a next state for every word and every state; `pc` and memory are never moved.
For the reserved words this is log entry 2. -/
def Obligations.ExecuteIsTotal : Prop :=
  ∀ (w : Byte) (s : State), ∃ s', executeWord w s = .next s' ∧ s'.pc = s.pc ∧ s'.mem = s.mem ∧ s'.pending = s.pending ∧
    (s'.out.unimpl = true ↔ wordDefined w = false)

/-- 41_alu_add R83: ADD(tgt), whole, for the seven targets. -/
def Obligations.AddResult : Prop :=
  ∀ (t : Target) (s : State), decode (wordFor 0x0 t) = .ok (instrOf .add t) ∧
    ∃ s', exec (instrOf .add t) s = .next s' ∧
      regNat .a s' = (regNat .a s + regNat t s) % 256 ∧
      (s'.f.z = true ↔ (regNat .a s + regNat t s) % 256 = 0) ∧ s'.f.n = false ∧
      (s'.f.h = true ↔ 15 < regNat .a s % 16 + regNat t s % 16) ∧
      (s'.f.c = true ↔ 255 < regNat .a s + regNat t s) ∧ keepsRegs [.a] s s' ∧ keepsRest s s'

/-- 41_alu_add R84: ADC(tgt), whole, for this hardware's `HC_CIN` = 0 and for both settings. -/
def Obligations.AdcResult : Prop :=
  (∀ (t : Target) (s : State), decode (wordFor 0x1 t) = .ok (instrOf .adc t) ∧
    ∃ s', exec (instrOf .adc t) s = .next s' ∧ AdcLeaves false t s s') ∧
  (∀ (cfg : Config) (t : Target) (s : State), ∃ s', runAdc cfg t s = .next s' ∧ AdcLeaves cfg.hcCin t s s')

/-- 41_alu_add R85: ADDHL(tgt), whole: zero from 16 bits, half-carry from A and the operand. -/
def Obligations.AddhlResult : Prop :=
  ∀ (t : Target) (s : State), decode (wordFor 0x2 t) = .ok (instrOf .addhl t) ∧
    ∃ s', exec (instrOf .addhl t) s = .next s' ∧
      (getHL s').toNat = ((getHL s).toNat + regNat t s) % 65536 ∧
      (s'.f.z = true ↔ ((getHL s).toNat + regNat t s) % 65536 = 0) ∧ s'.f.n = false ∧
      (s'.f.h = true ↔ 15 < regNat .a s % 16 + regNat t s % 16) ∧
      (s'.f.c = true ↔ 65535 < (getHL s).toNat + regNat t s) ∧ keepsRegs [.h, .l] s s' ∧ keepsRest s s'

/-- 42_alu_logic R90: AND(tgt), whole. -/
def Obligations.AndResult : Prop :=
  ∀ (t : Target) (s : State), decode (wordFor 0x3 t) = .ok (instrOf .and t) ∧
    ∃ s', exec (instrOf .and t) s = .next s' ∧
      (∀ k, (getReg .a s').getLsbD k = ((getReg .a s).getLsbD k && (getReg t s).getLsbD k)) ∧
      (s'.f.z = true ↔ getReg .a s' = 0) ∧ s'.f.n = false ∧ s'.f.h = true ∧ s'.f.c = false ∧
      keepsRegs [.a] s s' ∧ keepsRest s s'

/-- 42_alu_logic R91: OR(tgt), whole. -/
def Obligations.OrResult : Prop :=
  ∀ (t : Target) (s : State), decode (wordFor 0x4 t) = .ok (instrOf .or t) ∧
    ∃ s', exec (instrOf .or t) s = .next s' ∧
      (∀ k, (getReg .a s').getLsbD k = ((getReg .a s).getLsbD k || (getReg t s).getLsbD k)) ∧
      (s'.f.z = true ↔ getReg .a s' = 0) ∧ s'.f.n = false ∧ s'.f.h = false ∧ s'.f.c = false ∧
      keepsRegs [.a] s s' ∧ keepsRest s s'

/-- 42_alu_logic R92: XOR(tgt), whole. -/
def Obligations.XorResult : Prop :=
  ∀ (t : Target) (s : State), decode (wordFor 0x5 t) = .ok (instrOf .xor t) ∧
    ∃ s', exec (instrOf .xor t) s = .next s' ∧
      (∀ k, (getReg .a s').getLsbD k = ((getReg .a s).getLsbD k != (getReg t s).getLsbD k)) ∧
      (s'.f.z = true ↔ getReg .a s = getReg t s) ∧ (s'.f.z = true ↔ getReg .a s' = 0) ∧
      s'.f.n = false ∧ s'.f.h = false ∧ s'.f.c = false ∧ keepsRegs [.a] s s' ∧ keepsRest s s'

/-- 43_alu_sub R95: SUB(tgt), whole. -/
def Obligations.SubResult : Prop :=
  ∀ (t : Target) (s : State), decode (wordFor 0x6 t) = .ok (instrOf .sub t) ∧
    ∃ s', exec (instrOf .sub t) s = .next s' ∧
      (regNat .a s' : Int) = ((regNat .a s : Int) - regNat t s) % 256 ∧
      (s'.f.z = true ↔ regNat .a s = regNat t s) ∧ s'.f.n = true ∧
      (s'.f.h = true ↔ regNat .a s % 16 < regNat t s % 16) ∧
      (s'.f.c = true ↔ regNat .a s < regNat t s) ∧ keepsRegs [.a] s s' ∧ keepsRest s s'

/-- 43_alu_sub R96: SBC(tgt), whole, for this hardware's `HC_CIN` = 0 and for both settings. -/
def Obligations.SbcResult : Prop :=
  (∀ (t : Target) (s : State), decode (wordFor 0x7 t) = .ok (instrOf .sbc t) ∧
    ∃ s', exec (instrOf .sbc t) s = .next s' ∧ SbcLeaves false t s s') ∧
  (∀ (cfg : Config) (t : Target) (s : State), ∃ s', runSbc cfg t s = .next s' ∧ SbcLeaves cfg.hcCin t s s')

/-- 43_alu_sub R97: CP(tgt), whole: no register is written, and the flags are those of SUB(tgt) from the same state. -/
def Obligations.CpResult : Prop :=
  ∀ (t : Target) (s : State), decode (wordFor 0x8 t) = .ok (instrOf .cp t) ∧
    ∃ s' u, exec (instrOf .cp t) s = .next s' ∧ exec (instrOf .sub t) s = .next u ∧ s'.f = u.f ∧
      (s'.f.z = true ↔ regNat .a s = regNat t s) ∧ s'.f.n = true ∧
      (s'.f.h = true ↔ regNat .a s % 16 < regNat t s % 16) ∧
      (s'.f.c = true ↔ regNat .a s < regNat t s) ∧ keepsRegs [] s s' ∧ keepsRest s s'

/-- 44_alu_incdec_ccf R100: INC(tgt), whole: in place, carry kept. -/
def Obligations.IncResult : Prop :=
  ∀ (t : Target) (s : State), decode (wordFor 0x9 t) = .ok (instrOf .inc t) ∧
    ∃ s', exec (instrOf .inc t) s = .next s' ∧
      regNat t s' = (regNat t s + 1) % 256 ∧
      (s'.f.z = true ↔ regNat t s = 255) ∧ s'.f.n = false ∧ (s'.f.h = true ↔ regNat t s % 16 = 15) ∧
      s'.f.c = s.f.c ∧ keepsRegs [t] s s' ∧ keepsRest s s'

/-- 44_alu_incdec_ccf R101: DEC(tgt), whole: in place, carry kept. -/
def Obligations.DecResult : Prop :=
  ∀ (t : Target) (s : State), decode (wordFor 0xA t) = .ok (instrOf .dec t) ∧
    ∃ s', exec (instrOf .dec t) s = .next s' ∧
      (regNat t s' : Int) = ((regNat t s : Int) - 1) % 256 ∧
      (s'.f.z = true ↔ regNat t s = 1) ∧ s'.f.n = true ∧ (s'.f.h = true ↔ regNat t s % 16 = 0) ∧
      s'.f.c = s.f.c ∧ keepsRegs [t] s s' ∧ keepsRest s s'

/-- 44_alu_incdec_ccf R102: CCF, whole: carry inverted, everything else kept; twice restores it. -/
def Obligations.CcfResult : Prop :=
  ∀ s : State, decode 0xB0 = .ok .ccf ∧
    ∃ s', exec .ccf s = .next s' ∧ (s'.f.c = true ↔ s.f.c = false) ∧
      s'.f.z = s.f.z ∧ s'.f.n = s.f.n ∧ s'.f.h = s.f.h ∧ keepsRegs [] s s' ∧ keepsRest s s' ∧ exec .ccf s' = .next s

/-- 43_alu_sub R95 (law L2 of 95_test_vectors): subtracting an equal value gives 0 and the flags 1 1 0 0. -/
def Obligations.SubOfEqualOperands : Prop :=
  ∀ (t : Target) (s : State), getReg t s = getReg .a s →
    ∃ s', exec (instrOf .sub t) s = .next s' ∧ getReg .a s' = 0 ∧ encodeFlags s'.f = 0xC0

/-- 44_alu_incdec_ccf R100, R101 (law L5): INC then DEC on one register restores it and never changes carry;
the other flags are those of the DEC. -/
def Obligations.IncThenDecRestores : Prop :=
  ∀ (t : Target) (s : State), ∃ s1 s2, exec (instrOf .inc t) s = .next s1 ∧ exec (instrOf .dec t) s1 = .next s2 ∧
    sameRegs s s2 ∧ s2.f.c = s.f.c ∧ s2.f.n = true ∧ (s2.f.z = true ↔ getReg t s = 0) ∧
    (s2.f.h = true ↔ regNat t s % 16 = 15)

/-- 41_alu_add R84, 43_alu_sub R96: without an incoming carry ADC is ADD and SBC is SUB, in every output, for both `HC_CIN`. -/
def Obligations.NoCarryMakesAdcAddAndSbcSub : Prop :=
  ∀ (cfg : Config) (t : Target) (s : State), s.f.c = false →
    runAdc cfg t s = exec (instrOf .add t) s ∧ runSbc cfg t s = exec (instrOf .sub t) s ∧
    exec (instrOf .adc t) s = exec (instrOf .add t) s ∧ exec (instrOf .sbc t) s = exec (instrOf .sub t) s

/-- 41_alu_add R84, 43_alu_sub R96, 90_conflicts C3: the incoming carry is part of the one computation, so an operand of 0xFF
with carry leaves A and reports the carry, where a two-stage computation would lose it. -/
def Obligations.CarryInAndOutShareOneComputation : Prop :=
  ∀ (t : Target) (s : State), getReg t s = 0xFF → s.f.c = true →
    (∃ s', exec (instrOf .adc t) s = .next s' ∧ getReg .a s' = getReg .a s ∧ s'.f.c = true) ∧
    (∃ s', exec (instrOf .sbc t) s = .next s' ∧ getReg .a s' = getReg .a s ∧ s'.f.c = true)

/-- 41_alu_add R84, 92_eei_decisions D7: the two settings of `HC_CIN` differ in ADC's half-carry only, exactly when the low
nibbles sum to 15 and there is an incoming carry. -/
def Obligations.AdcSettingsDifferOnlyInHalfCarry : Prop :=
  ∀ (t : Target) (s : State), ∃ s0 s1,
    runAdc { hardware with hcCin := false } t s = .next s0 ∧ runAdc { hardware with hcCin := true } t s = .next s1 ∧
    s1 = { s0 with f := { s0.f with h := s1.f.h } } ∧
    (s0.f.h ≠ s1.f.h ↔ regNat .a s % 16 + regNat t s % 16 = 15 ∧ s.f.c = true)

/-- 43_alu_sub R96, 92_eei_decisions D7: the two settings of `HC_CIN` differ in SBC's half-carry only, exactly when the low
nibbles are equal and there is an incoming carry. -/
def Obligations.SbcSettingsDifferOnlyInHalfCarry : Prop :=
  ∀ (t : Target) (s : State), ∃ s0 s1,
    runSbc { hardware with hcCin := false } t s = .next s0 ∧ runSbc { hardware with hcCin := true } t s = .next s1 ∧
    s1 = { s0 with f := { s0.f with h := s1.f.h } } ∧
    (s0.f.h ≠ s1.f.h ↔ regNat .a s % 16 = regNat t s % 16 ∧ s.f.c = true)

/-- 41_alu_add R86, 10_state R26: every instruction completes and changes only its destination registers and the flags it writes;
`pc`, memory and every other register stay. -/
def Obligations.InstructionsChangeOnlyTheirDestinations : Prop :=
  (∀ (o : Op) (t : Target) (s : State), ∃ s', exec (instrOf o t) s = .next s' ∧
    keepsRegs (destinations o t) s s' ∧ keepsRest s s' ∧ ((o = .inc ∨ o = .dec) → s'.f.c = s.f.c)) ∧
  (∀ s : State, ∃ s', exec .ccf s = .next s' ∧ keepsRegs [] s s' ∧ keepsRest s s' ∧
    s'.f.z = s.f.z ∧ s'.f.n = s.f.n ∧ s'.f.h = s.f.h) ∧
  (∀ i : Instr, (∃ o t, i = instrOf o t) ∨ i = .ccf)

/-- 10_state R15 (its table), R26: no instruction reads zero, subtract or half_carry, nor `pc`, memory or anything else but registers and carry:
two states with the same registers and carry give the same registers and carry, and but for CCF the same four flags. -/
def Obligations.OnlyRegistersAndCarryAreRead : Prop :=
  ∀ (i : Instr) (s u : State), sameRegs s u → u.f.c = s.f.c →
    ∃ s' u', exec i s = .next s' ∧ exec i u = .next u' ∧ sameRegs s' u' ∧ u'.f.c = s'.f.c ∧ (i ≠ .ccf → u'.f = s'.f)

/-- 10_state R15 (its table), R26: of the operations with a target only ADC and SBC read carry: for the others two states with the
same registers give the same registers and the same zero, subtract and half_carry, and, but for INC and DEC, the same carry. -/
def Obligations.OnlyAdcAndSbcReadCarry : Prop :=
  ∀ (o : Op) (t : Target) (s u : State), o ≠ .adc → o ≠ .sbc → sameRegs s u →
    ∃ s' u', exec (instrOf o t) s = .next s' ∧ exec (instrOf o t) u = .next u' ∧ sameRegs s' u' ∧
      u'.f.z = s'.f.z ∧ u'.f.n = s'.f.n ∧ u'.f.h = s'.f.h ∧ (o ≠ .inc → o ≠ .dec → u'.f.c = s'.f.c)

/-- 10_state R20, R21, 20_memory R33: no step of any kind takes `pc` from 0 or a memory byte from 0 (a step with
a reserved word among them: log entry 2; the queue the step reads is log entry 1). -/
def Obligations.UntouchedIsKeptByEveryStep : Prop :=
  ∀ s s' : State, Untouched s → step s = .next s' → Untouched s'

/-- 10_state R20, R24: the state after reset meets the invariant. That its memory list is canonical is about the model's own list form
(log entry 6), of which no rule speaks. -/
def Obligations.ResetMeetsTheInvariants : Prop := Untouched State.reset ∧ MemoryCanonical State.reset

/-- 20_memory R30, R33: every step keeps the memory list canonical and inside the surface (the form is the model's, log entry 6). -/
def Obligations.MemoryCanonicalIsKeptByEveryStep : Prop :=
  ∀ s s' : State, MemoryCanonical s → step s = .next s' → MemoryCanonical s'

/-- 10_state R20, 20_memory R33, 45_dispatcher R110: only a reset edge moves `pc` or memory (for the reserved words log entry 2; the queue is
log entry 1). -/
def Obligations.OnlyResetMovesPcOrMemory : Prop :=
  ∀ s s' : State, step s = .next s' →
    (∃ p rest, nextEdge s p rest ∧ p.rst = true) ∨
    (s'.pc = s.pc ∧ s'.mem = s.mem ∧ ∀ cfg addr, readByte cfg addr s' = readByte cfg addr s)

/-- 45_dispatcher R116: each operation of the driver is consumed exactly once, in order (the queue is the model's, log entry 1). -/
def Obligations.EachDriverOperationIsConsumedOnce : Prop :=
  ∀ s s' : State, step s = .next s' → s'.pending = s.pending.tail

/-- 45_dispatcher R113: `unimpl` is 1 exactly in a step, not under reset, whose word is reserved (its record is the model's, log entry 3;
that the model goes on there is log entry 2). -/
def Obligations.UnimplShowsExactlyReservedWords : Prop :=
  ∀ s s' : State, step s = .next s' →
    (s'.out.unimpl = true ↔
      ∃ p rest, nextEdge s p rest ∧ p.rst = false ∧ p.instrValid = true ∧ wordDefined p.instr = false)

/-- 60_exceptions R120, R122, 40_codec_regfile R71: the machine stops on two causes only, a read of memory that does not exist
and a host set with a step. That a reserved word is no third cause is the model's choice between the two ways U1 offers (log entry 2);
that the read stops the machine as an operation of its own is log entry 4; the queue is log entry 1. -/
def Obligations.OnlyTwoCausesStopTheMachine : Prop :=
  ∀ s : State,
    (∀ r, step s = .fault r ↔ ∃ addr rest, s.pending = .readByte addr :: rest ∧ 65535 ≤ addr.toNat ∧ r = .memFault addr) ∧
    (∀ r, step s = .refused r ↔
      r = .hostSetWithStep ∧ ∃ p rest, nextEdge s p rest ∧ p.rst = false ∧ p.instrValid = true ∧ p.hwValid = true)

/-- 20_memory R32, 92_eei_decisions D8: `read_byte` faults exactly at or above MEM_SIZE, for this hardware exactly at 0xFFFF, and with
MEM_SIZE 65536 nowhere; the operation then stops with that fault, without a value and without a next state. -/
def Obligations.ReadByteFaultsExactlyAboveMemSize : Prop :=
  (∀ (cfg : Config) (addr : Pair) (s : State), hostRead cfg addr s = .fault (.memFault addr) ↔ cfg.memSize ≤ addr.toNat) ∧
  (∀ (cfg : Config) (addr : Pair) (s : State), readByte cfg addr s = .error (.memFault addr) ↔ cfg.memSize ≤ addr.toNat) ∧
  (∀ (addr : Pair) (s : State), readByte hardware addr s = .error (.memFault addr) ↔ addr = 0xFFFF) ∧
  (∀ (addr : Pair) (s : State), ∃ v, readByte { hardware with memSize := 65536 } addr s = .ok v)

/-- 20_memory R31, R32, 60_exceptions R122: the host operation answers the byte the memory holds at the address, the only one a canonical
memory holds there, changes no state and may be repeated; at 0xFFFF it faults. That it is an operation of its own, between edges, is
log entry 4; where its answer stands is log entry 3; the queue is log entry 1; the list form of memory is log entry 6. -/
def Obligations.HostReadAnswersOrFaults : Prop :=
  ∀ (addr : Pair) (s : State) (rest : List DriverOp), s.pending = .readByte addr :: rest →
    (addr.toNat ≤ 65534 → ∃ v, readByte hardware addr s = .ok v ∧
      memoryHolds s.mem addr.toNat v ∧ (MemoryCanonical s → ∀ b, memoryHolds s.mem addr.toNat b → b = v) ∧
      step s = .next { s with pending := rest, out := ⟨false, some v⟩ } ∧
      readByte hardware addr { s with pending := rest, out := ⟨false, some v⟩ } = .ok v) ∧
    (addr = 0xFFFF → step s = .fault (.memFault 0xFFFF))

/-- 45_dispatcher R113: in a cycle with nothing asked the state does not change; a driver with nothing pending asks for nothing
(log entry 1). -/
def Obligations.IdleCycleHoldsTheState : Prop :=
  (∀ (s : State) (p : Pins) (rest : List DriverOp), nextEdge s p rest → p.rst = false → p.instrValid = false → p.hwValid = false →
    step s = .next { s with pending := rest, out := ⟨false, none⟩ }) ∧
  (∀ s : State, s.pending = [] → step s = .next { s with out := ⟨false, none⟩ })

/-- 70_reset_and_hazards R140: an instruction in the cycle after another sees all of the other's results (the queue is log entry 1,
the shown outputs log entry 3). -/
def Obligations.NextInstructionSeesAllResults : Prop :=
  ∀ (s : State) (w1 w2 : Byte) (i1 i2 : Instr) (rest : List DriverOp),
    s.pending = .clock (Pins.execute w1) :: .clock (Pins.execute w2) :: rest →
    decode w1 = .ok i1 → decode w2 = .ok i2 →
    ∃ s1 s2, exec i1 { s with pending := rest, out := ⟨false, none⟩ } = .next s1 ∧ exec i2 s1 = .next s2 ∧
      Sys2Proof.core.run 2 s = .next s2

/-- 70_reset_and_hazards R138: a driver that keeps its three obligations never sees the machine stop nor `unimpl`, from any state and for
any number of steps (the queue is log entry 1, the record of `unimpl` log entry 3, the read as an operation of its own log entry 4). -/
def Obligations.WellBehavedDriverNeverStops : Prop :=
  ∀ (k : Nat) (s : State), DriverBehaves s → goodRun k s = true

/-- 20_memory R33, 70_reset_and_hazards R137, R31: after a reset edge a read below MEM_SIZE answers the byte MEM_IMAGE gives, for every
canonical image, and it is the only byte the image gives there. That MEM_IMAGE is a list is log entry 6. -/
def Obligations.ReadAfterResetAnswersTheImage : Prop :=
  ∀ (cfg : Config) (p : Pins) (s : State), p.rst = true → Memory.wf cfg.memImage = true →
    ∃ s', clockEdge cfg p s = .next s' ∧
      ∀ addr : Pair, addr.toNat < cfg.memSize →
        ∃ v, readByte cfg addr s' = .ok v ∧ ∀ b, memoryHolds cfg.memImage addr.toNat b ↔ b = v
end

