-- ==== Sys2Proof/Laws/Flags.lean ====
section
/-! SUPPORT. The arithmetic helpers in terms of integers. -/

namespace Sys2Proof.Laws

open Sys2Proof.Machine

/-- `wrap_8` is the residue modulo 256. -/
theorem wrap8_toInt (x : Int) : ((wrap8 x).toNat : Int) = x % 256 := by
  simp only [wrap8, BitVec.toNat_ofInt]
  omega

/-- `wrap_16` is the residue modulo 65536. -/
theorem wrap16_toInt (x : Int) : ((wrap16 x).toNat : Int) = x % 65536 := by
  simp only [wrap16, BitVec.toNat_ofInt]
  omega

/-- `wrap_8` of a sum. -/
theorem wrap8_toNat (n : Nat) : (wrap8 n).toNat = n % 256 := by have := wrap8_toInt n; omega

/-- `wrap_16` of a sum. -/
theorem wrap16_toNat (n : Nat) : (wrap16 n).toNat = n % 65536 := by have := wrap16_toInt n; omega

/-- `x & 0xF` is the residue modulo 16. -/
theorem lowNibble_eq (x : Byte) : lowNibble x = x.toNat % 16 := by
  simp only [lowNibble, BitVec.toNat_and]
  exact Nat.and_two_pow_sub_one_eq_mod x.toNat 4

/-- A byte is 0 exactly when its number is. -/
theorem byte_eq_zero (x : Byte) : x = 0 ↔ x.toNat = 0 := by
  rw [← BitVec.toNat_inj]; rfl

/-- A pair is 0 exactly when its number is. -/
theorem pair_eq_zero (x : Pair) : x = 0 ↔ x.toNat = 0 := by
  rw [← BitVec.toNat_inj]; rfl

@[simp] theorem bit_true : bit true = 1 := rfl

@[simp] theorem bit_false : bit false = 0 := rfl

end Sys2Proof.Laws
end

