-- ==== Sys2Proof/Laws/State.lean ====
section
/-! SUPPORT. One lemma per field per update of State, so that no proof unfolds a record update. -/

namespace Sys2Proof.Laws

open Sys2Proof.Machine

variable (s : State)

@[simp] theorem setFlags_a (v : Flags) : (setFlags v s).a = s.a := rfl
@[simp] theorem setFlags_b (v : Flags) : (setFlags v s).b = s.b := rfl
@[simp] theorem setFlags_c (v : Flags) : (setFlags v s).c = s.c := rfl
@[simp] theorem setFlags_d (v : Flags) : (setFlags v s).d = s.d := rfl
@[simp] theorem setFlags_e (v : Flags) : (setFlags v s).e = s.e := rfl
@[simp] theorem setFlags_h (v : Flags) : (setFlags v s).h = s.h := rfl
@[simp] theorem setFlags_l (v : Flags) : (setFlags v s).l = s.l := rfl
@[simp] theorem setFlags_f (v : Flags) : (setFlags v s).f = v := rfl
@[simp] theorem setFlags_pc (v : Flags) : (setFlags v s).pc = s.pc := rfl
@[simp] theorem setFlags_mem (v : Flags) : (setFlags v s).mem = s.mem := rfl
@[simp] theorem setFlags_pending (v : Flags) : (setFlags v s).pending = s.pending := rfl
@[simp] theorem setFlags_out (v : Flags) : (setFlags v s).out = s.out := rfl

@[simp] theorem setBC_a (v : Pair) : (setBC v s).a = s.a := rfl
@[simp] theorem setBC_b (v : Pair) : (setBC v s).b = highByte v := rfl
@[simp] theorem setBC_c (v : Pair) : (setBC v s).c = lowByte v := rfl
@[simp] theorem setBC_d (v : Pair) : (setBC v s).d = s.d := rfl
@[simp] theorem setBC_e (v : Pair) : (setBC v s).e = s.e := rfl
@[simp] theorem setBC_h (v : Pair) : (setBC v s).h = s.h := rfl
@[simp] theorem setBC_l (v : Pair) : (setBC v s).l = s.l := rfl
@[simp] theorem setBC_f (v : Pair) : (setBC v s).f = s.f := rfl
@[simp] theorem setBC_pc (v : Pair) : (setBC v s).pc = s.pc := rfl
@[simp] theorem setBC_mem (v : Pair) : (setBC v s).mem = s.mem := rfl
@[simp] theorem setBC_pending (v : Pair) : (setBC v s).pending = s.pending := rfl
@[simp] theorem setBC_out (v : Pair) : (setBC v s).out = s.out := rfl

@[simp] theorem setDE_a (v : Pair) : (setDE v s).a = s.a := rfl
@[simp] theorem setDE_b (v : Pair) : (setDE v s).b = s.b := rfl
@[simp] theorem setDE_c (v : Pair) : (setDE v s).c = s.c := rfl
@[simp] theorem setDE_d (v : Pair) : (setDE v s).d = highByte v := rfl
@[simp] theorem setDE_e (v : Pair) : (setDE v s).e = lowByte v := rfl
@[simp] theorem setDE_h (v : Pair) : (setDE v s).h = s.h := rfl
@[simp] theorem setDE_l (v : Pair) : (setDE v s).l = s.l := rfl
@[simp] theorem setDE_f (v : Pair) : (setDE v s).f = s.f := rfl
@[simp] theorem setDE_pc (v : Pair) : (setDE v s).pc = s.pc := rfl
@[simp] theorem setDE_mem (v : Pair) : (setDE v s).mem = s.mem := rfl
@[simp] theorem setDE_pending (v : Pair) : (setDE v s).pending = s.pending := rfl
@[simp] theorem setDE_out (v : Pair) : (setDE v s).out = s.out := rfl

@[simp] theorem setHL_a (v : Pair) : (setHL v s).a = s.a := rfl
@[simp] theorem setHL_b (v : Pair) : (setHL v s).b = s.b := rfl
@[simp] theorem setHL_c (v : Pair) : (setHL v s).c = s.c := rfl
@[simp] theorem setHL_d (v : Pair) : (setHL v s).d = s.d := rfl
@[simp] theorem setHL_e (v : Pair) : (setHL v s).e = s.e := rfl
@[simp] theorem setHL_h (v : Pair) : (setHL v s).h = highByte v := rfl
@[simp] theorem setHL_l (v : Pair) : (setHL v s).l = lowByte v := rfl
@[simp] theorem setHL_f (v : Pair) : (setHL v s).f = s.f := rfl
@[simp] theorem setHL_pc (v : Pair) : (setHL v s).pc = s.pc := rfl
@[simp] theorem setHL_mem (v : Pair) : (setHL v s).mem = s.mem := rfl
@[simp] theorem setHL_pending (v : Pair) : (setHL v s).pending = s.pending := rfl
@[simp] theorem setHL_out (v : Pair) : (setHL v s).out = s.out := rfl

@[simp] theorem setAF_a (v : Pair) : (setAF v s).a = highByte v := rfl
@[simp] theorem setAF_b (v : Pair) : (setAF v s).b = s.b := rfl
@[simp] theorem setAF_c (v : Pair) : (setAF v s).c = s.c := rfl
@[simp] theorem setAF_d (v : Pair) : (setAF v s).d = s.d := rfl
@[simp] theorem setAF_e (v : Pair) : (setAF v s).e = s.e := rfl
@[simp] theorem setAF_h (v : Pair) : (setAF v s).h = s.h := rfl
@[simp] theorem setAF_l (v : Pair) : (setAF v s).l = s.l := rfl
@[simp] theorem setAF_f (v : Pair) : (setAF v s).f = decodeFlags (lowByte v) := rfl
@[simp] theorem setAF_pc (v : Pair) : (setAF v s).pc = s.pc := rfl
@[simp] theorem setAF_mem (v : Pair) : (setAF v s).mem = s.mem := rfl
@[simp] theorem setAF_pending (v : Pair) : (setAF v s).pending = s.pending := rfl
@[simp] theorem setAF_out (v : Pair) : (setAF v s).out = s.out := rfl

@[simp] theorem showOutputs_a (v : Outputs) : (showOutputs v s).a = s.a := rfl
@[simp] theorem showOutputs_b (v : Outputs) : (showOutputs v s).b = s.b := rfl
@[simp] theorem showOutputs_c (v : Outputs) : (showOutputs v s).c = s.c := rfl
@[simp] theorem showOutputs_d (v : Outputs) : (showOutputs v s).d = s.d := rfl
@[simp] theorem showOutputs_e (v : Outputs) : (showOutputs v s).e = s.e := rfl
@[simp] theorem showOutputs_h (v : Outputs) : (showOutputs v s).h = s.h := rfl
@[simp] theorem showOutputs_l (v : Outputs) : (showOutputs v s).l = s.l := rfl
@[simp] theorem showOutputs_f (v : Outputs) : (showOutputs v s).f = s.f := rfl
@[simp] theorem showOutputs_pc (v : Outputs) : (showOutputs v s).pc = s.pc := rfl
@[simp] theorem showOutputs_mem (v : Outputs) : (showOutputs v s).mem = s.mem := rfl
@[simp] theorem showOutputs_pending (v : Outputs) : (showOutputs v s).pending = s.pending := rfl
@[simp] theorem showOutputs_out (v : Outputs) : (showOutputs v s).out = v := rfl

@[simp] theorem unimplemented_a : (unimplemented s).a = s.a := rfl
@[simp] theorem unimplemented_b : (unimplemented s).b = s.b := rfl
@[simp] theorem unimplemented_c : (unimplemented s).c = s.c := rfl
@[simp] theorem unimplemented_d : (unimplemented s).d = s.d := rfl
@[simp] theorem unimplemented_e : (unimplemented s).e = s.e := rfl
@[simp] theorem unimplemented_h : (unimplemented s).h = s.h := rfl
@[simp] theorem unimplemented_l : (unimplemented s).l = s.l := rfl
@[simp] theorem unimplemented_f : (unimplemented s).f = s.f := rfl
@[simp] theorem unimplemented_pc : (unimplemented s).pc = s.pc := rfl
@[simp] theorem unimplemented_mem : (unimplemented s).mem = s.mem := rfl
@[simp] theorem unimplemented_pending : (unimplemented s).pending = s.pending := rfl
@[simp] theorem unimplemented_out : (unimplemented s).out = ⟨true, none⟩ := rfl

@[simp] theorem consumeDriverOp_a : (consumeDriverOp s).a = s.a := rfl
@[simp] theorem consumeDriverOp_b : (consumeDriverOp s).b = s.b := rfl
@[simp] theorem consumeDriverOp_c : (consumeDriverOp s).c = s.c := rfl
@[simp] theorem consumeDriverOp_d : (consumeDriverOp s).d = s.d := rfl
@[simp] theorem consumeDriverOp_e : (consumeDriverOp s).e = s.e := rfl
@[simp] theorem consumeDriverOp_h : (consumeDriverOp s).h = s.h := rfl
@[simp] theorem consumeDriverOp_l : (consumeDriverOp s).l = s.l := rfl
@[simp] theorem consumeDriverOp_f : (consumeDriverOp s).f = s.f := rfl
@[simp] theorem consumeDriverOp_pc : (consumeDriverOp s).pc = s.pc := rfl
@[simp] theorem consumeDriverOp_mem : (consumeDriverOp s).mem = s.mem := rfl
@[simp] theorem consumeDriverOp_pending : (consumeDriverOp s).pending = s.pending.tail := rfl
@[simp] theorem consumeDriverOp_out : (consumeDriverOp s).out = s.out := rfl

@[simp] theorem presentWord_a (w : Byte) : (presentWord w s).a = s.a := rfl
@[simp] theorem presentWord_b (w : Byte) : (presentWord w s).b = s.b := rfl
@[simp] theorem presentWord_c (w : Byte) : (presentWord w s).c = s.c := rfl
@[simp] theorem presentWord_d (w : Byte) : (presentWord w s).d = s.d := rfl
@[simp] theorem presentWord_e (w : Byte) : (presentWord w s).e = s.e := rfl
@[simp] theorem presentWord_h (w : Byte) : (presentWord w s).h = s.h := rfl
@[simp] theorem presentWord_l (w : Byte) : (presentWord w s).l = s.l := rfl
@[simp] theorem presentWord_f (w : Byte) : (presentWord w s).f = s.f := rfl
@[simp] theorem presentWord_pc (w : Byte) : (presentWord w s).pc = s.pc := rfl
@[simp] theorem presentWord_mem (w : Byte) : (presentWord w s).mem = s.mem := rfl
@[simp] theorem presentWord_pending (w : Byte) : (presentWord w s).pending = .clock (Pins.execute w) :: s.pending := rfl
@[simp] theorem presentWord_out (w : Byte) : (presentWord w s).out = s.out := rfl

@[simp] theorem applyReset_a (cfg : Config) : (applyReset cfg s).a = 0 := rfl
@[simp] theorem applyReset_b (cfg : Config) : (applyReset cfg s).b = 0 := rfl
@[simp] theorem applyReset_c (cfg : Config) : (applyReset cfg s).c = 0 := rfl
@[simp] theorem applyReset_d (cfg : Config) : (applyReset cfg s).d = 0 := rfl
@[simp] theorem applyReset_e (cfg : Config) : (applyReset cfg s).e = 0 := rfl
@[simp] theorem applyReset_h (cfg : Config) : (applyReset cfg s).h = 0 := rfl
@[simp] theorem applyReset_l (cfg : Config) : (applyReset cfg s).l = 0 := rfl
@[simp] theorem applyReset_f (cfg : Config) : (applyReset cfg s).f = ⟨false, false, false, false⟩ := rfl
@[simp] theorem applyReset_pc (cfg : Config) : (applyReset cfg s).pc = 0 := rfl
@[simp] theorem applyReset_mem (cfg : Config) : (applyReset cfg s).mem = cfg.memImage := rfl
@[simp] theorem applyReset_pending (cfg : Config) : (applyReset cfg s).pending = s.pending := rfl
@[simp] theorem applyReset_out (cfg : Config) : (applyReset cfg s).out = Outputs.quiet := rfl

@[simp] theorem setReg_a (t : Target) (v : Byte) : (setReg t v s).a = if t = .a then v else s.a := by cases t <;> rfl
@[simp] theorem setReg_b (t : Target) (v : Byte) : (setReg t v s).b = if t = .b then v else s.b := by cases t <;> rfl
@[simp] theorem setReg_c (t : Target) (v : Byte) : (setReg t v s).c = if t = .c then v else s.c := by cases t <;> rfl
@[simp] theorem setReg_d (t : Target) (v : Byte) : (setReg t v s).d = if t = .d then v else s.d := by cases t <;> rfl
@[simp] theorem setReg_e (t : Target) (v : Byte) : (setReg t v s).e = if t = .e then v else s.e := by cases t <;> rfl
@[simp] theorem setReg_h (t : Target) (v : Byte) : (setReg t v s).h = if t = .h then v else s.h := by cases t <;> rfl
@[simp] theorem setReg_l (t : Target) (v : Byte) : (setReg t v s).l = if t = .l then v else s.l := by cases t <;> rfl
@[simp] theorem setReg_f (t : Target) (v : Byte) : (setReg t v s).f = s.f := by cases t <;> rfl
@[simp] theorem setReg_pc (t : Target) (v : Byte) : (setReg t v s).pc = s.pc := by cases t <;> rfl
@[simp] theorem setReg_mem (t : Target) (v : Byte) : (setReg t v s).mem = s.mem := by cases t <;> rfl
@[simp] theorem setReg_pending (t : Target) (v : Byte) : (setReg t v s).pending = s.pending := by cases t <;> rfl
@[simp] theorem setReg_out (t : Target) (v : Byte) : (setReg t v s).out = s.out := by cases t <;> rfl

@[simp] theorem getReg_a : getReg .a s = s.a := rfl
@[simp] theorem getReg_b : getReg .b s = s.b := rfl
@[simp] theorem getReg_c : getReg .c s = s.c := rfl
@[simp] theorem getReg_d : getReg .d s = s.d := rfl
@[simp] theorem getReg_e : getReg .e s = s.e := rfl
@[simp] theorem getReg_h : getReg .h s = s.h := rfl
@[simp] theorem getReg_l : getReg .l s = s.l := rfl

/-- Reading a register after a register write: the written value, or the old one. -/
theorem getReg_setReg (t u : Target) (v : Byte) : getReg u (setReg t v s) = if u = t then v else getReg u s := by
  cases t <;> cases u <;> rfl

/-- Reading a register looks at the seven registers only. -/
theorem getReg_congr {s s' : State} (h : (s'.a, s'.b, s'.c, s'.d, s'.e, s'.h, s'.l) = (s.a, s.b, s.c, s.d, s.e, s.h, s.l))
    (t : Target) : getReg t s' = getReg t s := by
  simp only [Prod.mk.injEq] at h
  obtain ⟨ha, hb, hc, hd, he, hh, hl⟩ := h
  cases t <;> simp only [getReg, ha, hb, hc, hd, he, hh, hl]

@[simp] theorem getReg_setFlags (t : Target) (v : Flags) : getReg t (setFlags v s) = getReg t s := getReg_congr rfl t

@[simp] theorem getReg_showOutputs (t : Target) (v : Outputs) : getReg t (showOutputs v s) = getReg t s := getReg_congr rfl t

@[simp] theorem getReg_consumeDriverOp (t : Target) : getReg t (consumeDriverOp s) = getReg t s := getReg_congr rfl t

/-- Reading memory looks at the memory only. -/
theorem readByte_congr {s s' : State} (h : s'.mem = s.mem) (cfg : Config) (addr : Pair) :
    readByte cfg addr s' = readByte cfg addr s := by simp only [readByte, h]

end Sys2Proof.Laws
end

