-- ==== Sys2Proof/Laws/Exec.lean ====
section
/-! SUPPORT. What the dispatcher and the ports can do, said once: each operation's arm, the forms of an instruction, and
one inversion lemma per shared operation of the ports. -/

namespace Sys2Proof.Laws

open Sys2Proof.Machine

/-- An instruction is an operation with a target, or CCF. -/
theorem instr_cases (i : Instr) : (∃ o t, i = instrOf o t) ∨ i = .ccf := by
  cases i
  · exact .inl ⟨.add, .a, rfl⟩
  · exact .inl ⟨.add, .b, rfl⟩
  · exact .inl ⟨.add, .c, rfl⟩
  · exact .inl ⟨.add, .d, rfl⟩
  · exact .inl ⟨.add, .e, rfl⟩
  · exact .inl ⟨.add, .h, rfl⟩
  · exact .inl ⟨.add, .l, rfl⟩
  · exact .inl ⟨.adc, .a, rfl⟩
  · exact .inl ⟨.adc, .b, rfl⟩
  · exact .inl ⟨.adc, .c, rfl⟩
  · exact .inl ⟨.adc, .d, rfl⟩
  · exact .inl ⟨.adc, .e, rfl⟩
  · exact .inl ⟨.adc, .h, rfl⟩
  · exact .inl ⟨.adc, .l, rfl⟩
  · exact .inl ⟨.addhl, .a, rfl⟩
  · exact .inl ⟨.addhl, .b, rfl⟩
  · exact .inl ⟨.addhl, .c, rfl⟩
  · exact .inl ⟨.addhl, .d, rfl⟩
  · exact .inl ⟨.addhl, .e, rfl⟩
  · exact .inl ⟨.addhl, .h, rfl⟩
  · exact .inl ⟨.addhl, .l, rfl⟩
  · exact .inl ⟨.and, .a, rfl⟩
  · exact .inl ⟨.and, .b, rfl⟩
  · exact .inl ⟨.and, .c, rfl⟩
  · exact .inl ⟨.and, .d, rfl⟩
  · exact .inl ⟨.and, .e, rfl⟩
  · exact .inl ⟨.and, .h, rfl⟩
  · exact .inl ⟨.and, .l, rfl⟩
  · exact .inl ⟨.or, .a, rfl⟩
  · exact .inl ⟨.or, .b, rfl⟩
  · exact .inl ⟨.or, .c, rfl⟩
  · exact .inl ⟨.or, .d, rfl⟩
  · exact .inl ⟨.or, .e, rfl⟩
  · exact .inl ⟨.or, .h, rfl⟩
  · exact .inl ⟨.or, .l, rfl⟩
  · exact .inl ⟨.xor, .a, rfl⟩
  · exact .inl ⟨.xor, .b, rfl⟩
  · exact .inl ⟨.xor, .c, rfl⟩
  · exact .inl ⟨.xor, .d, rfl⟩
  · exact .inl ⟨.xor, .e, rfl⟩
  · exact .inl ⟨.xor, .h, rfl⟩
  · exact .inl ⟨.xor, .l, rfl⟩
  · exact .inl ⟨.sub, .a, rfl⟩
  · exact .inl ⟨.sub, .b, rfl⟩
  · exact .inl ⟨.sub, .c, rfl⟩
  · exact .inl ⟨.sub, .d, rfl⟩
  · exact .inl ⟨.sub, .e, rfl⟩
  · exact .inl ⟨.sub, .h, rfl⟩
  · exact .inl ⟨.sub, .l, rfl⟩
  · exact .inl ⟨.sbc, .a, rfl⟩
  · exact .inl ⟨.sbc, .b, rfl⟩
  · exact .inl ⟨.sbc, .c, rfl⟩
  · exact .inl ⟨.sbc, .d, rfl⟩
  · exact .inl ⟨.sbc, .e, rfl⟩
  · exact .inl ⟨.sbc, .h, rfl⟩
  · exact .inl ⟨.sbc, .l, rfl⟩
  · exact .inl ⟨.cp, .a, rfl⟩
  · exact .inl ⟨.cp, .b, rfl⟩
  · exact .inl ⟨.cp, .c, rfl⟩
  · exact .inl ⟨.cp, .d, rfl⟩
  · exact .inl ⟨.cp, .e, rfl⟩
  · exact .inl ⟨.cp, .h, rfl⟩
  · exact .inl ⟨.cp, .l, rfl⟩
  · exact .inl ⟨.inc, .a, rfl⟩
  · exact .inl ⟨.inc, .b, rfl⟩
  · exact .inl ⟨.inc, .c, rfl⟩
  · exact .inl ⟨.inc, .d, rfl⟩
  · exact .inl ⟨.inc, .e, rfl⟩
  · exact .inl ⟨.inc, .h, rfl⟩
  · exact .inl ⟨.inc, .l, rfl⟩
  · exact .inl ⟨.dec, .a, rfl⟩
  · exact .inl ⟨.dec, .b, rfl⟩
  · exact .inl ⟨.dec, .c, rfl⟩
  · exact .inl ⟨.dec, .d, rfl⟩
  · exact .inl ⟨.dec, .e, rfl⟩
  · exact .inl ⟨.dec, .h, rfl⟩
  · exact .inl ⟨.dec, .l, rfl⟩
  · exact .inr rfl

/-- The seven arms of ADD. -/
theorem exec_add (t : Target) (s : State) : exec (instrOf .add t) s = runAdd t s := by cases t <;> rfl

/-- The seven arms of ADC. -/
theorem exec_adc (t : Target) (s : State) : exec (instrOf .adc t) s = runAdc hardware t s := by cases t <;> rfl

/-- The seven arms of ADDHL. -/
theorem exec_addhl (t : Target) (s : State) : exec (instrOf .addhl t) s = runAddhl t s := by cases t <;> rfl

/-- The seven arms of AND. -/
theorem exec_and (t : Target) (s : State) : exec (instrOf .and t) s = runAnd t s := by cases t <;> rfl

/-- The seven arms of OR. -/
theorem exec_or (t : Target) (s : State) : exec (instrOf .or t) s = runOr t s := by cases t <;> rfl

/-- The seven arms of XOR. -/
theorem exec_xor (t : Target) (s : State) : exec (instrOf .xor t) s = runXor t s := by cases t <;> rfl

/-- The seven arms of SUB. -/
theorem exec_sub (t : Target) (s : State) : exec (instrOf .sub t) s = runSub t s := by cases t <;> rfl

/-- The seven arms of SBC. -/
theorem exec_sbc (t : Target) (s : State) : exec (instrOf .sbc t) s = runSbc hardware t s := by cases t <;> rfl

/-- The seven arms of CP. -/
theorem exec_cp (t : Target) (s : State) : exec (instrOf .cp t) s = runCp t s := by cases t <;> rfl

/-- The seven arms of INC. -/
theorem exec_inc (t : Target) (s : State) : exec (instrOf .inc t) s = runInc t s := by cases t <;> rfl

/-- The seven arms of DEC. -/
theorem exec_dec (t : Target) (s : State) : exec (instrOf .dec t) s = runDec t s := by cases t <;> rfl

/-- CCF's arm. -/
theorem exec_ccf (s : State) : exec .ccf s = .next (setFlags { s.f with c := !s.f.c } s) := rfl

/-- Every operation with a target ends in the next state with one of three write-backs: a register and the flags, HL and
the flags, or the flags alone (45_dispatcher R111). -/
theorem exec_instrOf_shape (o : Op) (t : Target) (s : State) : ∃ f,
    (∃ r v, exec (instrOf o t) s = .next (writeBack r v f s)) ∨
    (∃ v, exec (instrOf o t) s = .next (writeBackHL v f s)) ∨
    exec (instrOf o t) s = .next (setFlags f s) := by
  cases o
  · exact ⟨_, .inl ⟨_, _, exec_add t s⟩⟩
  · exact ⟨_, .inl ⟨_, _, exec_adc t s⟩⟩
  · exact ⟨_, .inr (.inl ⟨_, exec_addhl t s⟩)⟩
  · exact ⟨_, .inl ⟨_, _, exec_and t s⟩⟩
  · exact ⟨_, .inl ⟨_, _, exec_or t s⟩⟩
  · exact ⟨_, .inl ⟨_, _, exec_xor t s⟩⟩
  · exact ⟨_, .inl ⟨_, _, exec_sub t s⟩⟩
  · exact ⟨_, .inl ⟨_, _, exec_sbc t s⟩⟩
  · exact ⟨_, .inr (.inr (exec_cp t s))⟩
  · exact ⟨_, .inl ⟨_, _, exec_inc t s⟩⟩
  · exact ⟨_, .inl ⟨_, _, exec_dec t s⟩⟩

/-- Which operation a step takes: the first one pending. -/
theorem step_cons {s : State} {op : DriverOp} {rest : List DriverOp} (h : s.pending = op :: rest) :
    step s = runDriverOp hardware op { s with pending := rest } := by
  simp only [step, nextDriverOp, consumeDriverOp, h, List.headD_cons, List.tail_cons]

/-- With nothing pending a step is an idle cycle. -/
theorem step_nil {s : State} (h : s.pending = []) : step s = .next (showOutputs Outputs.quiet s) := by
  cases s
  simp only at h
  subst h
  rfl

/-- A host read answers the byte and shows it, or faults. -/
theorem hostRead_cases (cfg : Config) (addr : Pair) (s : State) :
    (addr.toNat < cfg.memSize ∧
      hostRead cfg addr s = .next (showOutputs ⟨false, some (Memory.read s.mem addr.toNat)⟩ s)) ∨
    (cfg.memSize ≤ addr.toNat ∧ hostRead cfg addr s = .fault (.memFault addr)) := by
  by_cases h : addr.toNat < cfg.memSize
  · exact .inl ⟨h, by simp only [hostRead, readByte, h, if_true]⟩
  · exact .inr ⟨by omega, by simp only [hostRead, readByte, h, if_false]⟩

/-- The step by a word: the instruction it codes, or the flagged no-op. -/
theorem executeWord_cases (w : Byte) (s : State) :
    (∃ i, decode w = .ok i ∧ executeWord w s = exec i (showOutputs Outputs.quiet s)) ∨
    (∃ r, decode w = .error r ∧ executeWord w s = .next (unimplemented s)) := by
  cases h : decode w with
  | ok i => exact .inl ⟨i, rfl, by simp only [executeWord, h]⟩
  | error r => exact .inr ⟨r, rfl, by simp only [executeWord, h]⟩

/-- A clock edge is a reset, the refused pair of requests, a step, a host set, or an idle cycle. -/
theorem clockEdge_cases (cfg : Config) (p : Pins) (s : State) :
    (p.rst = true ∧ clockEdge cfg p s = .next (applyReset cfg s)) ∨
    (p.rst = false ∧ p.instrValid = true ∧ p.hwValid = true ∧ clockEdge cfg p s = .refused .hostSetWithStep) ∨
    (p.rst = false ∧ p.instrValid = true ∧ p.hwValid = false ∧ clockEdge cfg p s = executeWord p.instr s) ∨
    (p.rst = false ∧ p.instrValid = false ∧ p.hwValid = true ∧
      clockEdge cfg p s = .next (showOutputs Outputs.quiet (hostSet p.hwSel p.hwData s))) ∨
    (p.rst = false ∧ p.instrValid = false ∧ p.hwValid = false ∧ clockEdge cfg p s = .next (showOutputs Outputs.quiet s)) := by
  obtain ⟨rst, iv, instr, hv, sel, data⟩ := p
  cases rst <;> cases iv <;> cases hv <;> simp [clockEdge]

/-- A host set writes registers and flags and nothing else. -/
theorem hostSet_rest (sel : BitVec 4) (v : Pair) (s : State) :
    (hostSet sel v s).pc = s.pc ∧ (hostSet sel v s).mem = s.mem ∧
      (hostSet sel v s).pending = s.pending ∧ (hostSet sel v s).out = s.out := by
  unfold hostSet
  split <;> simp

end Sys2Proof.Laws
end

