-- ==== Sys2Proof/Laws/Memory.lean ====
section
/-! SUPPORT. The memory list: reads of a canonical list, and that building an image keeps the canonical form. -/

namespace Sys2Proof.Laws

open Sys2Proof.Machine

@[simp] theorem read_nil (addr : Nat) : Memory.read [] addr = unlistedByte := rfl

theorem read_cons (cell : Host.Cell) (m : Memory) (addr : Nat) :
    Memory.read (cell :: m) addr = if cell.1 = addr then cell.2 else Memory.read m addr := rfl

@[simp] theorem risingFrom_nil (low : Nat) : Memory.risingFrom low [] = true := rfl

@[simp] theorem risingFrom_cons (low : Nat) (cell : Host.Cell) (m : Memory) :
    Memory.risingFrom low (cell :: m) = true ↔
      low ≤ cell.1 ∧ cell.2 ≠ unlistedByte ∧ Memory.risingFrom (cell.1 + 1) m = true := by
  simp [Memory.risingFrom, and_assoc]

theorem poke_nil (addr : Nat) (v : Byte) :
    Memory.poke addr v [] = if v = unlistedByte then [] else [(addr, v)] := rfl

theorem poke_cons (addr : Nat) (v : Byte) (cell : Host.Cell) (rest : Memory) :
    Memory.poke addr v (cell :: rest) =
      if cell.1 < addr then cell :: Memory.poke addr v rest
      else if cell.1 = addr then (if v = unlistedByte then rest else (addr, v) :: rest)
      else if v = unlistedByte then cell :: rest
      else (addr, v) :: cell :: rest := rfl

/-- A list that rises from `high` rises from anything at or below it. -/
theorem risingFrom_mono {low high : Nat} {m : Memory} (hle : low ≤ high) (h : Memory.risingFrom high m = true) :
    Memory.risingFrom low m = true := by
  cases m with
  | nil => rfl
  | cons cell rest =>
    rw [risingFrom_cons] at h ⊢
    exact ⟨hle.trans h.1, h.2⟩

/-- Below where a rising list starts, every address is unlisted. -/
theorem read_below {low addr : Nat} {m : Memory} (h : Memory.risingFrom low m = true) (hlt : addr < low) :
    Memory.read m addr = unlistedByte := by
  induction m generalizing low with
  | nil => rfl
  | cons cell rest ih =>
    obtain ⟨hle, -, hrest⟩ := (risingFrom_cons _ _ _).1 h
    rw [read_cons, if_neg (by omega)]
    exact ih hrest (by omega)

/-- Poking keeps a rising list rising. -/
theorem risingFrom_poke {low addr : Nat} {m : Memory} (v : Byte) (hle : low ≤ addr) (h : Memory.risingFrom low m = true) :
    Memory.risingFrom low (Memory.poke addr v m) = true := by
  induction m generalizing low with
  | nil =>
    rw [poke_nil]
    split_ifs with hv
    · rfl
    · exact (risingFrom_cons _ _ _).2 ⟨hle, hv, rfl⟩
  | cons cell rest ih =>
    obtain ⟨hlow, hne, hrest⟩ := (risingFrom_cons _ _ _).1 h
    rw [poke_cons]
    split_ifs with hlt heq hv hv
    · exact (risingFrom_cons _ _ _).2 ⟨hlow, hne, ih (by omega) hrest⟩
    · exact risingFrom_mono (by omega) hrest
    · exact (risingFrom_cons _ _ _).2 ⟨hle, hv, by rw [← heq]; exact hrest⟩
    · exact h
    · exact (risingFrom_cons _ _ _).2 ⟨hle, hv, (risingFrom_cons _ _ _).2 ⟨by show addr + 1 ≤ cell.1; omega, hne, hrest⟩⟩

/-- Building an image keeps the canonical form. -/
theorem wf_poke (addr : Nat) (v : Byte) {m : Memory} (h : Memory.wf m = true) : Memory.wf (Memory.poke addr v m) = true :=
  risingFrom_poke v (Nat.zero_le _) h

/-- Reading an image after a poke: the byte put there, or the old byte. -/
theorem read_poke {low : Nat} (addr : Nat) (v : Byte) {m : Memory} (h : Memory.risingFrom low m = true) (x : Nat) :
    Memory.read (Memory.poke addr v m) x = if x = addr then v else Memory.read m x := by
  induction m generalizing low with
  | nil =>
    rw [poke_nil]
    by_cases hv : v = unlistedByte <;> by_cases hx : x = addr
    · rw [if_pos hv, if_pos hx, hv]; rfl
    · rw [if_pos hv, if_neg hx]
    · rw [if_neg hv, if_pos hx, read_cons, if_pos hx.symm]
    · rw [if_neg hv, if_neg hx, read_cons, if_neg (Ne.symm hx)]
  | cons cell rest ih =>
    obtain ⟨-, -, hrest⟩ := (risingFrom_cons _ _ _).1 h
    have gone : ∀ y, y ≤ cell.1 → Memory.read rest y = unlistedByte := fun y hy => read_below hrest (by omega)
    rw [poke_cons]
    rcases Nat.lt_trichotomy cell.1 addr with hlt | heq | hgt
    · rw [if_pos hlt, read_cons, read_cons, ih hrest]
      by_cases hx : cell.1 = x
      · rw [if_pos hx, if_pos hx, if_neg (by omega)]
      · rw [if_neg hx, if_neg hx]
    · rw [if_neg (by omega), if_pos heq]
      by_cases hv : v = unlistedByte <;> by_cases hx : x = addr
      · rw [if_pos hv, if_pos hx, gone x (by omega), hv]
      · rw [if_pos hv, if_neg hx, read_cons, if_neg (by omega)]
      · rw [if_neg hv, if_pos hx, read_cons, if_pos hx.symm]
      · rw [if_neg hv, if_neg hx, read_cons, if_neg (Ne.symm hx), read_cons, if_neg (by omega)]
    · rw [if_neg (by omega), if_neg (by omega)]
      by_cases hv : v = unlistedByte <;> by_cases hx : x = addr
      · rw [if_pos hv, if_pos hx, read_cons, if_neg (by omega), gone x (by omega), hv]
      · rw [if_pos hv, if_neg hx]
      · rw [if_neg hv, if_pos hx, read_cons, if_pos hx.symm]
      · rw [if_neg hv, if_neg hx, read_cons, if_neg (Ne.symm hx)]

/-- Two canonical lists that read the same everywhere are the same list. -/
theorem eq_of_reads {low : Nat} {m m' : Memory} (h : Memory.risingFrom low m = true) (h' : Memory.risingFrom low m' = true)
    (hr : ∀ x, Memory.read m x = Memory.read m' x) : m = m' := by
  induction m generalizing low m' with
  | nil =>
    cases m' with
    | nil => rfl
    | cons cell rest =>
      have this := hr cell.1
      rw [read_nil, read_cons, if_pos rfl] at this
      exact absurd this.symm ((risingFrom_cons _ _ _).1 h').2.1
  | cons cell rest ih =>
    obtain ⟨hlow, hne, hrest⟩ := (risingFrom_cons _ _ _).1 h
    cases m' with
    | nil =>
      have this := hr cell.1
      rw [read_nil, read_cons, if_pos rfl] at this
      exact absurd this hne
    | cons cell' rest' =>
      obtain ⟨hlow', hne', hrest'⟩ := (risingFrom_cons _ _ _).1 h'
      have haddr : cell.1 = cell'.1 := by
        rcases Nat.lt_trichotomy cell.1 cell'.1 with hlt | heq | hlt
        · have this := hr cell.1
          rw [read_cons, if_pos rfl, read_cons, if_neg (by omega), read_below hrest' (by omega)] at this
          exact absurd this hne
        · exact heq
        · have this := hr cell'.1
          rw [read_cons, if_neg (by omega), read_below hrest (by omega), read_cons, if_pos rfl] at this
          exact absurd this.symm hne'
      have hcell : cell = cell' := by
        have this := hr cell.1
        rw [read_cons, if_pos rfl, read_cons, if_pos haddr.symm] at this
        exact Prod.ext haddr this
      subst hcell
      congr 1
      refine ih hrest hrest' fun x => ?_
      by_cases hx : cell.1 = x
      · rw [read_below hrest (by omega), read_below hrest' (by omega)]
      · have this := hr x
        rwa [read_cons, if_neg hx, read_cons, if_neg hx] at this

/-- A read answers a listed byte, or the unlisted byte where the list names none for the address. -/
theorem read_cases (m : Memory) (addr : Nat) :
    (addr, Memory.read m addr) ∈ m ∨ ((∀ b, (addr, b) ∉ m) ∧ Memory.read m addr = unlistedByte) := by
  induction m with
  | nil => exact .inr ⟨fun _ => List.not_mem_nil, rfl⟩
  | cons cell rest ih =>
    rw [read_cons]
    by_cases h : cell.1 = addr
    · rw [if_pos h]
      exact .inl (List.mem_cons.2 (.inl (Prod.ext h.symm rfl)))
    · rw [if_neg h]
      rcases ih with hin | ⟨hout, hzero⟩
      · exact .inl (List.mem_cons_of_mem _ hin)
      · refine .inr ⟨fun b hb => ?_, hzero⟩
        rcases List.mem_cons.1 hb with heq | hb
        · exact h (congrArg Prod.fst heq).symm
        · exact hout b hb

/-- Every address a rising list names is at or above where it starts. -/
theorem le_of_mem {low addr : Nat} {b : Byte} {m : Memory} (h : Memory.risingFrom low m = true) (hin : (addr, b) ∈ m) :
    low ≤ addr := by
  by_contra hlt
  induction m generalizing low with
  | nil => exact List.not_mem_nil hin
  | cons cell rest ih =>
    obtain ⟨hle, -, hrest⟩ := (risingFrom_cons _ _ _).1 h
    rcases List.mem_cons.1 hin with rfl | hin
    · exact hlt hle
    · exact ih hrest hin (by omega)

/-- A rising list reads, at an address it names, as the byte it names. -/
theorem read_of_mem {low addr : Nat} {b : Byte} {m : Memory} (h : Memory.risingFrom low m = true) (hin : (addr, b) ∈ m) :
    Memory.read m addr = b := by
  induction m generalizing low with
  | nil => exact absurd hin List.not_mem_nil
  | cons cell rest ih =>
    obtain ⟨-, -, hrest⟩ := (risingFrom_cons _ _ _).1 h
    rw [read_cons]
    rcases List.mem_cons.1 hin with rfl | hin
    · rw [if_pos rfl]
    · have hlow := le_of_mem hrest hin
      rw [if_neg (by omega)]
      exact ih hrest hin

/-- The memory after reset is canonical. -/
theorem wf_reset : Memory.wf State.reset.mem = true := rfl

end Sys2Proof.Laws
end

