-- ==== Sys2Proof/Laws/PerInstr.lean ====
section
/-! SUPPORT. Per-instruction laws: the word of each instruction is a defined word by the field checks of WellFormed.lean,
which are written apart from the encoder (30_encoding R50, R52). -/

namespace Sys2Proof.Laws.WordShape

/-- The encoder gives the instruction a defined word. -/
def Statement (i : Instr) : Prop := wordDefined (encode i) = true

theorem addA : Statement .addA := by unfold Statement; decide
theorem addB : Statement .addB := by unfold Statement; decide
theorem addC : Statement .addC := by unfold Statement; decide
theorem addD : Statement .addD := by unfold Statement; decide
theorem addE : Statement .addE := by unfold Statement; decide
theorem addH : Statement .addH := by unfold Statement; decide
theorem addL : Statement .addL := by unfold Statement; decide
theorem adcA : Statement .adcA := by unfold Statement; decide
theorem adcB : Statement .adcB := by unfold Statement; decide
theorem adcC : Statement .adcC := by unfold Statement; decide
theorem adcD : Statement .adcD := by unfold Statement; decide
theorem adcE : Statement .adcE := by unfold Statement; decide
theorem adcH : Statement .adcH := by unfold Statement; decide
theorem adcL : Statement .adcL := by unfold Statement; decide
theorem addhlA : Statement .addhlA := by unfold Statement; decide
theorem addhlB : Statement .addhlB := by unfold Statement; decide
theorem addhlC : Statement .addhlC := by unfold Statement; decide
theorem addhlD : Statement .addhlD := by unfold Statement; decide
theorem addhlE : Statement .addhlE := by unfold Statement; decide
theorem addhlH : Statement .addhlH := by unfold Statement; decide
theorem addhlL : Statement .addhlL := by unfold Statement; decide
theorem andA : Statement .andA := by unfold Statement; decide
theorem andB : Statement .andB := by unfold Statement; decide
theorem andC : Statement .andC := by unfold Statement; decide
theorem andD : Statement .andD := by unfold Statement; decide
theorem andE : Statement .andE := by unfold Statement; decide
theorem andH : Statement .andH := by unfold Statement; decide
theorem andL : Statement .andL := by unfold Statement; decide
theorem orA : Statement .orA := by unfold Statement; decide
theorem orB : Statement .orB := by unfold Statement; decide
theorem orC : Statement .orC := by unfold Statement; decide
theorem orD : Statement .orD := by unfold Statement; decide
theorem orE : Statement .orE := by unfold Statement; decide
theorem orH : Statement .orH := by unfold Statement; decide
theorem orL : Statement .orL := by unfold Statement; decide
theorem xorA : Statement .xorA := by unfold Statement; decide
theorem xorB : Statement .xorB := by unfold Statement; decide
theorem xorC : Statement .xorC := by unfold Statement; decide
theorem xorD : Statement .xorD := by unfold Statement; decide
theorem xorE : Statement .xorE := by unfold Statement; decide
theorem xorH : Statement .xorH := by unfold Statement; decide
theorem xorL : Statement .xorL := by unfold Statement; decide
theorem subA : Statement .subA := by unfold Statement; decide
theorem subB : Statement .subB := by unfold Statement; decide
theorem subC : Statement .subC := by unfold Statement; decide
theorem subD : Statement .subD := by unfold Statement; decide
theorem subE : Statement .subE := by unfold Statement; decide
theorem subH : Statement .subH := by unfold Statement; decide
theorem subL : Statement .subL := by unfold Statement; decide
theorem sbcA : Statement .sbcA := by unfold Statement; decide
theorem sbcB : Statement .sbcB := by unfold Statement; decide
theorem sbcC : Statement .sbcC := by unfold Statement; decide
theorem sbcD : Statement .sbcD := by unfold Statement; decide
theorem sbcE : Statement .sbcE := by unfold Statement; decide
theorem sbcH : Statement .sbcH := by unfold Statement; decide
theorem sbcL : Statement .sbcL := by unfold Statement; decide
theorem cpA : Statement .cpA := by unfold Statement; decide
theorem cpB : Statement .cpB := by unfold Statement; decide
theorem cpC : Statement .cpC := by unfold Statement; decide
theorem cpD : Statement .cpD := by unfold Statement; decide
theorem cpE : Statement .cpE := by unfold Statement; decide
theorem cpH : Statement .cpH := by unfold Statement; decide
theorem cpL : Statement .cpL := by unfold Statement; decide
theorem incA : Statement .incA := by unfold Statement; decide
theorem incB : Statement .incB := by unfold Statement; decide
theorem incC : Statement .incC := by unfold Statement; decide
theorem incD : Statement .incD := by unfold Statement; decide
theorem incE : Statement .incE := by unfold Statement; decide
theorem incH : Statement .incH := by unfold Statement; decide
theorem incL : Statement .incL := by unfold Statement; decide
theorem decA : Statement .decA := by unfold Statement; decide
theorem decB : Statement .decB := by unfold Statement; decide
theorem decC : Statement .decC := by unfold Statement; decide
theorem decD : Statement .decD := by unfold Statement; decide
theorem decE : Statement .decE := by unfold Statement; decide
theorem decH : Statement .decH := by unfold Statement; decide
theorem decL : Statement .decL := by unfold Statement; decide
theorem ccf : Statement .ccf := by unfold Statement; decide

end Sys2Proof.Laws.WordShape
end

