-- ==== Sys2Proof/Tests/Slice0.lean ====
section
/-! SUPPORT. Small tests of the model against the spec's own vectors (95_test_vectors), words written out from the table of
30_encoding R52, the ill-formed terms WellFormed refuses, and a witness for the hypotheses of every statement. -/

namespace Sys2Proof.Tests

open Sys2Proof.Machine Sys2Proof.Claims

/-- The next state, if there is one. -/
def after (o : Host.Outcome State Fault Refusal) : Option State :=
  match o with
  | .next s => some s
  | .fault _ => none
  | .refused _ => none

/-- A state after reset with A, B, H, L and the packed flags set. -/
def st (a b h l f : Byte) : State := { State.reset with a := a, b := b, h := h, l := l, f := decodeFlags f }

/-- A and the packed flags after an outcome. -/
def aAndF (o : Host.Outcome State Fault Refusal) : Option (Byte × Byte) := (after o).map fun s => (s.a, encodeFlags s.f)

/-- B and the packed flags after an outcome. -/
def bAndF (o : Host.Outcome State Fault Refusal) : Option (Byte × Byte) := (after o).map fun s => (s.b, encodeFlags s.f)

/-- HL and the packed flags after an outcome. -/
def hlAndF (o : Host.Outcome State Fault Refusal) : Option (Pair × Byte) := (after o).map fun s => (getHL s, encodeFlags s.f)

/-- The reset state with these driver operations to come. -/
def asked (ops : List DriverOp) : State := { State.reset with pending := ops }

/-! ## Ill-formed terms (30_encoding R46, R47, R49; 70_reset_and_hazards R138) -/

theorem test_bit_three_refused : wordDefined 0x08 = false ∧ bitThreeClear 0x08 = false := by decide
theorem test_op_refused : wordDefined 0xC0 = false ∧ opAssigned 0xC0 = false := by decide
theorem test_target_refused : wordDefined 0x07 = false ∧ targetNamed 0x07 = false := by decide
theorem test_ccf_target_refused : wordDefined 0xB1 = false ∧ ccfTargetZero 0xB1 = false := by decide
theorem test_set_with_step_ill_formed :
    DriverOp.wellFormed 65535 (.clock ⟨false, true, 0x00, true, 0, 0⟩) = false ∧
    Pins.exclusive ⟨false, true, 0x00, true, 0, 0⟩ = false := by decide
theorem test_reserved_word_ill_formed :
    DriverOp.wellFormed 65535 (.clock (Pins.execute 0x3F)) = false ∧ Pins.presentsDefined (Pins.execute 0x3F) = false := by
  decide
theorem test_read_above_ill_formed :
    DriverOp.wellFormed 65535 (.readByte 0xFFFF) = false ∧ DriverOp.wellFormed 65535 (.readByte 0xFFFE) = true := by decide

/-! ## Decoding: every constructor's word, from the table of 30_encoding R52 -/

theorem test_decode_add :
    [decode 0x00, decode 0x01, decode 0x02, decode 0x03, decode 0x04, decode 0x05, decode 0x06] =
      [.ok .addA, .ok .addB, .ok .addC, .ok .addD, .ok .addE, .ok .addH, .ok .addL] := by decide
theorem test_decode_adc :
    [decode 0x10, decode 0x11, decode 0x12, decode 0x13, decode 0x14, decode 0x15, decode 0x16] =
      [.ok .adcA, .ok .adcB, .ok .adcC, .ok .adcD, .ok .adcE, .ok .adcH, .ok .adcL] := by decide
theorem test_decode_addhl :
    [decode 0x20, decode 0x21, decode 0x22, decode 0x23, decode 0x24, decode 0x25, decode 0x26] =
      [.ok .addhlA, .ok .addhlB, .ok .addhlC, .ok .addhlD, .ok .addhlE, .ok .addhlH, .ok .addhlL] := by decide
theorem test_decode_and :
    [decode 0x30, decode 0x31, decode 0x32, decode 0x33, decode 0x34, decode 0x35, decode 0x36] =
      [.ok .andA, .ok .andB, .ok .andC, .ok .andD, .ok .andE, .ok .andH, .ok .andL] := by decide
theorem test_decode_or :
    [decode 0x40, decode 0x41, decode 0x42, decode 0x43, decode 0x44, decode 0x45, decode 0x46] =
      [.ok .orA, .ok .orB, .ok .orC, .ok .orD, .ok .orE, .ok .orH, .ok .orL] := by decide
theorem test_decode_xor :
    [decode 0x50, decode 0x51, decode 0x52, decode 0x53, decode 0x54, decode 0x55, decode 0x56] =
      [.ok .xorA, .ok .xorB, .ok .xorC, .ok .xorD, .ok .xorE, .ok .xorH, .ok .xorL] := by decide
theorem test_decode_sub :
    [decode 0x60, decode 0x61, decode 0x62, decode 0x63, decode 0x64, decode 0x65, decode 0x66] =
      [.ok .subA, .ok .subB, .ok .subC, .ok .subD, .ok .subE, .ok .subH, .ok .subL] := by decide
theorem test_decode_sbc :
    [decode 0x70, decode 0x71, decode 0x72, decode 0x73, decode 0x74, decode 0x75, decode 0x76] =
      [.ok .sbcA, .ok .sbcB, .ok .sbcC, .ok .sbcD, .ok .sbcE, .ok .sbcH, .ok .sbcL] := by decide
theorem test_decode_cp :
    [decode 0x80, decode 0x81, decode 0x82, decode 0x83, decode 0x84, decode 0x85, decode 0x86] =
      [.ok .cpA, .ok .cpB, .ok .cpC, .ok .cpD, .ok .cpE, .ok .cpH, .ok .cpL] := by decide
theorem test_decode_inc :
    [decode 0x90, decode 0x91, decode 0x92, decode 0x93, decode 0x94, decode 0x95, decode 0x96] =
      [.ok .incA, .ok .incB, .ok .incC, .ok .incD, .ok .incE, .ok .incH, .ok .incL] := by decide
theorem test_decode_dec :
    [decode 0xA0, decode 0xA1, decode 0xA2, decode 0xA3, decode 0xA4, decode 0xA5, decode 0xA6] =
      [.ok .decA, .ok .decB, .ok .decC, .ok .decD, .ok .decE, .ok .decH, .ok .decL] := by decide
theorem test_decode_ccf : decode 0xB0 = .ok .ccf := by decide

/-- 95_test_vectors section 2.12. -/
theorem test_decode_reserved :
    [decode 0x07, decode 0x08, decode 0xA7, decode 0xB1, decode 0xB7, decode 0xB8, decode 0xC0, decode 0xF6, decode 0xFF,
      decode 0x3F, decode 0x09] =
      [.error .target, .error .mustBeZeroBit, .error .target, .error .ccfTarget, .error .ccfTarget, .error .mustBeZeroBit,
        .error .operation, .error .operation, .error .mustBeZeroBit, .error .mustBeZeroBit, .error .mustBeZeroBit] := by decide

/-! ## Instructions (95_test_vectors sections 2.2 to 2.11) -/

theorem test_add_wraps : aAndF (exec .addB (st 0xFF 0x01 0 0 0xF0)) = some (0x00, 0xB0) := by decide
theorem test_add_no_half : aAndF (exec .addB (st 0xF0 0x10 0 0 0x00)) = some (0x00, 0x90) := by decide
theorem test_add_self : aAndF (exec .addA (st 0x81 0 0 0 0x00)) = some (0x02, 0x10) := by decide
/-- Section 2.11, every target. -/
theorem test_add_each_target :
    let s : State := { State.reset with a := 0x10, b := 0x01, c := 0x02, d := 0x03, e := 0x04, h := 0x05, l := 0x06 }
    [exec .addA s, exec .addB s, exec .addC s, exec .addD s, exec .addE s, exec .addH s, exec .addL s].map aAndF =
      [some (0x20, 0), some (0x11, 0), some (0x12, 0), some (0x13, 0), some (0x14, 0), some (0x15, 0), some (0x16, 0)] := by
  decide
theorem test_adc_one_computation : aAndF (exec .adcB (st 0x00 0xFF 0 0 0x10)) = some (0x00, 0x90) := by decide
theorem test_adc_half_without_carry : aAndF (exec .adcB (st 0x0F 0x00 0 0 0x10)) = some (0x10, 0x00) := by decide
theorem test_adc_half_with_carry :
    aAndF (runAdc { hardware with hcCin := true } .b (st 0x0F 0x00 0 0 0x10)) = some (0x10, 0x20) := by decide
theorem test_adc_self : aAndF (exec .adcA (st 0x80 0 0 0 0x10)) = some (0x01, 0x10) := by decide
theorem test_addhl_wraps : hlAndF (exec .addhlB (st 0x00 0x01 0xFF 0xFF 0)) = some (0x0000, 0x90) := by decide
theorem test_addhl_half_from_a : hlAndF (exec .addhlB (st 0x01 0x0F 0x12 0x34 0)) = some (0x1243, 0x20) := by decide
theorem test_addhl_no_half_from_hl : hlAndF (exec .addhlB (st 0x00 0x01 0x0F 0xFF 0)) = some (0x1000, 0x00) := by decide
theorem test_addhl_h : hlAndF (exec .addhlH (st 0x00 0 0x12 0x34 0)) = some (0x1246, 0x00) := by decide
theorem test_addhl_l : hlAndF (exec .addhlL (st 0x01 0 0xFF 0xFF 0)) = some (0x00FE, 0x30) := by decide
theorem test_addhl_a : hlAndF (exec .addhlA (st 0x0F 0 0x00 0xF1 0)) = some (0x0100, 0x20) := by decide
theorem test_and : aAndF (exec .andB (st 0xF0 0x0F 0 0 0x50)) = some (0x00, 0xA0) := by decide
theorem test_and_scenario : aAndF (exec .andB (st 0x06 0x0C 0 0 0x00)) = some (0x04, 0x20) := by decide
theorem test_or : aAndF (exec .orB (st 0xF0 0x0F 0 0 0x50)) = some (0xFF, 0x00) := by decide
theorem test_xor : aAndF (exec .xorB (st 0xFF 0xFF 0 0 0x10)) = some (0x00, 0x80) := by decide
theorem test_xor_mixed : aAndF (exec .xorB (st 0x06 0x0C 0 0 0x00)) = some (0x0A, 0x00) := by decide
theorem test_sub_borrow : aAndF (exec .subB (st 0x00 0x01 0 0 0)) = some (0xFF, 0x70) := by decide
theorem test_sub_no_half : aAndF (exec .subB (st 0x0F 0xF0 0 0 0)) = some (0x1F, 0x50) := by decide
theorem test_sub_self : aAndF (exec .subA (st 0x5D 0 0 0 0)) = some (0x00, 0xC0) := by decide
theorem test_sbc_one_computation : aAndF (exec .sbcB (st 0x00 0xFF 0 0 0x10)) = some (0x00, 0xF0) := by decide
theorem test_sbc_half_without_carry : aAndF (exec .sbcB (st 0x10 0x00 0 0 0x10)) = some (0x0F, 0x40) := by decide
theorem test_sbc_half_with_carry :
    aAndF (runSbc { hardware with hcCin := true } .b (st 0x10 0x00 0 0 0x10)) = some (0x0F, 0x60) := by decide
theorem test_sbc_self : aAndF (exec .sbcA (st 0x5D 0 0 0 0x10)) = some (0xFF, 0x50) := by decide
theorem test_cp_keeps_a : aAndF (exec .cpB (st 0x3C 0x40 0 0 0)) = some (0x3C, 0x50) := by decide
theorem test_cp_half : aAndF (exec .cpB (st 0x01 0xFF 0 0 0)) = some (0x01, 0x70) := by decide
theorem test_inc_keeps_carry : bAndF (exec .incB (st 0x55 0xFF 0 0 0x10)) = some (0x00, 0xB0) := by decide
theorem test_inc_keeps_a : aAndF (exec .incB (st 0x55 0x7F 0 0 0xF0)) = some (0x55, 0x30) := by decide
theorem test_inc_l : hlAndF (exec .incL (st 0 0 0x12 0xFF 0)) = some (0x1200, 0xA0) := by decide
theorem test_dec_wraps : bAndF (exec .decB (st 0x55 0x00 0 0 0)) = some (0xFF, 0x60) := by decide
theorem test_dec_to_zero : bAndF (exec .decB (st 0x55 0x01 0 0 0x10)) = some (0x00, 0xD0) := by decide
theorem test_dec_h : hlAndF (exec .decH (st 0 0 0x00 0x34 0)) = some (0xFF34, 0x60) := by decide
theorem test_ccf_sets : aAndF (exec .ccf (st 0x12 0x34 0 0 0xA0)) = some (0x12, 0xB0) := by decide
theorem test_ccf_clears : aAndF (exec .ccf (st 0x12 0x34 0 0 0x50)) = some (0x12, 0x40) := by decide

/-! ## Codec, views and ports (95_test_vectors sections 2.1, 2.13) -/

theorem test_codec : encodeFlags (decodeFlags 0xA5) = 0xA0 ∧ decodeFlags 0x5A = ⟨false, true, false, true⟩ := by decide
theorem test_encode16 : encodeFlags16 ⟨true, true, true, true⟩ = 0x00F0 := by decide
theorem test_set_af : getAF (setAF 0x3C9A State.reset) = 0x3C90 := by decide
theorem test_set_de : (setDE 0xBEEF State.reset).d = 0xBE ∧ (setDE 0xBEEF State.reset).e = 0xEF := by decide
theorem test_read_port :
    (readPort { State.reset with a := 0x7E, f := ⟨true, false, true, true⟩ }).afO = 0x7EB0 := by decide
theorem test_reserved_word_step :
    after (step ((st 0x12 0x34 0 0 0xB0).withFetchWord 8 0x07)) =
      some { st 0x12 0x34 0 0 0xB0 with out := ⟨true, none⟩ } := by decide
theorem test_next_step_shows_no_unimpl :
    (after (step { (st 0x12 0 0 0 0).withFetchWord 8 0x00 with out := ⟨true, none⟩ })).map
      (fun s => (s.a, s.out.unimpl)) = some (0x24, false) := by decide
theorem test_first_step_runs_the_word :
    aAndF (step (State.reset.withFetchWord 8 0x90)) = some (0x01, 0x00) ∧ decodeTableWord 8 0x90 = some .incA := by decide
theorem test_read_last_byte :
    (after (step (asked [.readByte 0xFFFE]))).map (fun s => s.out.memData) = some (some 0x00) := by decide
/-- R31: a listed byte is answered, a neighbour that is not listed reads 0. -/
theorem test_read_nonzero_byte :
    [0x0003, 0x0004, 0xFFFE].map (fun addr =>
      (after (step { State.reset with mem := [(3, 9), (65534, 1)], pending := [.readByte addr] })).map
        fun s => s.out.memData) = [some (some 0x09), some (some 0x00), some (some 0x01)] := by decide
/-- R137: after a reset edge the image is what reads answer. -/
theorem test_read_after_reset_answers_image :
    (after (clockEdge { hardware with memImage := [(3, 9)] } Pins.reset State.reset)).map
      (fun s => (readByte hardware 3 s, readByte hardware 4 s)) = some (.ok 9, .ok 0) := by decide
theorem test_read_above_faults : step (asked [.readByte 0xFFFF]) = .fault (.memFault 0xFFFF) := rfl
theorem test_set_with_step_refused :
    step (asked [.clock ⟨false, true, 0x00, true, 0, 0⟩]) = .refused .hostSetWithStep := rfl
theorem test_reset_overrides :
    after (step { st 0x12 0x34 0x56 0x78 0xF0 with pending := [.clock ⟨true, true, 0x00, true, 0, 0⟩] }) =
      some State.reset := by decide
theorem test_image_is_canonical :
    Memory.poke 7 0 (Memory.poke 3 9 (Memory.poke 7 5 [])) = [(3, 9)] ∧
    Memory.wf (Memory.poke 3 9 (Memory.poke 7 5 [])) = true ∧ Memory.wf [(7, 5), (3, 9)] = false ∧
    Memory.wf [(3, 0)] = false := by decide

/-! ## Witnesses: the hypotheses of each statement are met together -/

theorem test_witness_ResetEdgeResetsEverything : (Pins.mk true true 0x01 true 9 0xFFFF).rst = true := by decide

/-- One edge for each clause, at the ends of its range of `hw_sel`. -/
theorem test_witness_HostWritePortSets :
    ∀ sel ∈ [(0 : BitVec 4), 6, 7, 8, 9, 10, 11, 12, 15],
      nextEdge (asked [.clock (Pins.hostSet sel 0x12FF)]) (Pins.hostSet sel 0x12FF) [] ∧
      (Pins.hostSet sel 0x12FF).rst = false ∧ (Pins.hostSet sel 0x12FF).instrValid = false ∧
      (Pins.hostSet sel 0x12FF).hwValid = true := by unfold nextEdge; decide
theorem test_witness_HostWritePortSets_targets :
    (0 : BitVec 4).toNat = targetCode .a ∧ (6 : BitVec 4).toNat = targetCode .l ∧ 12 ≤ (15 : BitVec 4).toNat := by decide
/-- Section 2.1: what the port does at the ends of its range. -/
theorem test_host_port_ends :
    [0, 6, 7, 8, 11, 12].map (fun sel => (after (step (asked [.clock (Pins.hostSet sel 0x12FF)]))).map
      fun s => (s.a, s.h, s.l, encodeFlags s.f)) =
      [some (0xFF, 0, 0, 0), some (0, 0, 0xFF, 0), some (0, 0, 0, 0), some (0x12, 0, 0, 0xF0), some (0, 0x12, 0xFF, 0),
        some (0, 0, 0, 0)] := by decide
theorem test_witness_HostSetWithStepIsRefused :
    let p : Pins := ⟨false, true, 0x01, true, 0, 0⟩
    p.rst = false ∧ p.instrValid = true ∧ p.hwValid = true := by decide
theorem test_witness_StepRunsTheDecodedInstruction :
    nextEdge (asked [.clock (Pins.execute 0x01)]) (Pins.execute 0x01) [] ∧ (Pins.execute 0x01).rst = false ∧
    (Pins.execute 0x01).instrValid = true ∧ (Pins.execute 0x01).hwValid = false ∧
    decode (Pins.execute 0x01).instr = .ok .addB := by unfold nextEdge; decide
theorem test_witness_ReservedWordIsFlaggedNoOp :
    nextEdge (asked [.clock (Pins.execute 0xB1)]) (Pins.execute 0xB1) [] ∧ decode 0xB1 = .error .ccfTarget ∧
    nextEdge (asked [.clock (Pins.execute 0xB0)]) (Pins.execute 0xB0) [] ∧ decode 0xB0 = .ok .ccf := by
  unfold nextEdge; decide
theorem test_witness_SubOfEqualOperands : getReg .b (st 0x5D 0x5D 0 0 0) = getReg .a (st 0x5D 0x5D 0 0 0) := by decide
theorem test_witness_NoCarryMakesAdcAddAndSbcSub : (st 0xFF 0x01 0 0 0xE0).f.c = false := by decide
theorem test_witness_CarryInAndOutShareOneComputation :
    getReg .b (st 0x00 0xFF 0 0 0x10) = 0xFF ∧ (st 0x00 0xFF 0 0 0x10).f.c = true := by decide
theorem test_witness_InstructionsChangeOnlyTheirDestinations :
    (Op.inc = .inc ∨ Op.inc = .dec) ∧ (Op.dec = .inc ∨ Op.dec = .dec) := by decide
theorem test_witness_OnlyRegistersAndCarryAreRead :
    sameRegs (st 1 2 3 4 0x10) { st 1 2 3 4 0xF0 with pc := 7, mem := [(3, 9)] } ∧
    { st 1 2 3 4 0xF0 with pc := 7, mem := [(3, 9)] }.f.c = (st 1 2 3 4 0x10).f.c ∧ Instr.addB ≠ .ccf :=
  ⟨fun t => by cases t <;> rfl, by decide, by decide⟩
theorem test_witness_OnlyAdcAndSbcReadCarry :
    Op.add ≠ .adc ∧ Op.add ≠ .sbc ∧ Op.add ≠ .inc ∧ Op.add ≠ .dec ∧ sameRegs (st 1 2 3 4 0x00) (st 1 2 3 4 0xF0) :=
  ⟨by decide, by decide, by decide, by decide, fun t => by cases t <;> rfl⟩
theorem test_witness_UntouchedIsKeptByEveryStep :
    Untouched (asked [.clock (Pins.execute 0x90)]) ∧
    step (asked [.clock (Pins.execute 0x90)]) = .next { State.reset with a := 1 } := by
  refine ⟨⟨rfl, fun addr ha => ?_⟩, rfl⟩
  simp only [readByte, ha, if_true]
  rfl
theorem test_witness_MemoryCanonicalIsKeptByEveryStep :
    MemoryCanonical { State.reset with mem := [(3, 9), (65534, 1)] } ∧
    step { State.reset with mem := [(3, 9), (65534, 1)] } = .next { State.reset with mem := [(3, 9), (65534, 1)] } := by
  refine ⟨?_, rfl⟩
  unfold MemoryCanonical
  decide
theorem test_witness_OnlyResetMovesPcOrMemory :
    step { State.reset with pc := 5, pending := [.clock Pins.reset] } = .next State.reset := rfl
theorem test_witness_EachDriverOperationIsConsumedOnce :
    step (asked [.clock (Pins.execute 0x90), .clock Pins.idle]) =
      .next { State.reset with a := 1, pending := [.clock Pins.idle] } := rfl
theorem test_witness_UnimplShowsExactlyReservedWords :
    step (asked [.clock (Pins.execute 0xFF)]) = .next { State.reset with out := ⟨true, none⟩ } ∧
    nextEdge (asked [.clock (Pins.execute 0xFF)]) (Pins.execute 0xFF) [] ∧ (Pins.execute 0xFF).rst = false ∧
    (Pins.execute 0xFF).instrValid = true ∧ wordDefined (Pins.execute 0xFF).instr = false :=
  ⟨rfl, rfl, rfl, rfl, by decide⟩
/-- For each clause: both ends of the surface, a listed address and one that is not, and the address above the surface. -/
theorem test_witness_HostReadAnswersOrFaults :
    let s : Pair → State := fun addr => { State.reset with mem := [(3, 9), (65534, 1)], pending := [.readByte addr] }
    ([0x0000, 0x0003, 0x0004, 0xFFFE].all fun addr => decide ((s addr).pending = [.readByte addr]) &&
      decide (addr.toNat ≤ 65534) && Memory.wf (s addr).mem && Memory.within hardware.memSize (s addr).mem) = true ∧
    (s 0xFFFF).pending = [.readByte 0xFFFF] := by decide
theorem test_witness_memoryHolds :
    memoryHolds [(3, 9), (65534, 1)] 3 9 ∧ memoryHolds [(3, 9), (65534, 1)] 65534 1 ∧
    memoryHolds [(3, 9), (65534, 1)] 0 0 := by
  simp [memoryHolds]
theorem test_witness_ReadAfterResetAnswersTheImage :
    Pins.reset.rst = true ∧ Memory.wf [(3, 9), (65534, 1)] = true ∧ (0 : Pair).toNat < hardware.memSize ∧
    (0xFFFE : Pair).toNat < hardware.memSize := by decide
theorem test_witness_IdleCycleHoldsTheState :
    nextEdge (asked [.clock Pins.idle]) Pins.idle [] ∧ Pins.idle.rst = false ∧ Pins.idle.instrValid = false ∧
    Pins.idle.hwValid = false ∧ State.reset.pending = [] := by unfold nextEdge; decide
theorem test_witness_NextInstructionSeesAllResults :
    (asked [.clock (Pins.execute 0xB0), .clock (Pins.execute 0x10)]).pending =
      [.clock (Pins.execute 0xB0), .clock (Pins.execute 0x10)] ∧ decode 0xB0 = .ok .ccf ∧ decode 0x10 = .ok .adcA := by
  decide
theorem test_witness_WellBehavedDriverNeverStops :
    DriverBehaves (asked [.clock (Pins.execute 0xB0), .clock (Pins.hostSet 9 0xABCD), .readByte 0xFFFE, .clock Pins.reset]) := by
  unfold DriverBehaves
  decide

end Sys2Proof.Tests
end

