-- ==== Sys2Proof/Proofs/Frame.lean ====
section
/-! PROOF. The write-back forms by field, and what an instruction, an operation of the driver and a step leave alone. -/

namespace Sys2Proof.Proofs

open Sys2Proof.Machine Sys2Proof.Claims Sys2Proof.Laws

section WriteBack

variable (s : State) (r : Target) (v : Byte) (w : Pair) (f : Flags)

@[simp] theorem writeBack_f : (writeBack r v f s).f = f := rfl
@[simp] theorem writeBack_pc : (writeBack r v f s).pc = s.pc := by simp [writeBack]
@[simp] theorem writeBack_mem : (writeBack r v f s).mem = s.mem := by simp [writeBack]
@[simp] theorem writeBack_pending : (writeBack r v f s).pending = s.pending := by simp [writeBack]
@[simp] theorem writeBack_out : (writeBack r v f s).out = s.out := by simp [writeBack]

@[simp] theorem writeBackHL_f : (writeBackHL w f s).f = f := rfl
@[simp] theorem writeBackHL_pc : (writeBackHL w f s).pc = s.pc := rfl
@[simp] theorem writeBackHL_mem : (writeBackHL w f s).mem = s.mem := rfl
@[simp] theorem writeBackHL_pending : (writeBackHL w f s).pending = s.pending := rfl
@[simp] theorem writeBackHL_out : (writeBackHL w f s).out = s.out := rfl

theorem getReg_writeBack (t : Target) : getReg t (writeBack r v f s) = if t = r then v else getReg t s := by
  rw [writeBack, getReg_setFlags, getReg_setReg]

/-- The write-back of a 16-bit result is a write of H and a write of L, with the flags (41_alu_add R85). -/
theorem writeBackHL_eq_setReg :
    writeBackHL w f s = setFlags f (setReg .h (highByte w) (setReg .l (lowByte w) s)) := rfl

end WriteBack

/-- The clause of `keepsRest` about reads follows from the one about the memory. -/
theorem keepsRest_of_fields {s s' : State} (hpc : s'.pc = s.pc) (hmem : s'.mem = s.mem)
    (hpending : s'.pending = s.pending) (hout : s'.out = s.out) : keepsRest s s' :=
  ⟨hpc, hmem, readByte_congr hmem, hpending, hout⟩

theorem setFlags_keepsRest (s : State) (f : Flags) : keepsRest s (setFlags f s) :=
  keepsRest_of_fields (setFlags_pc s f) (setFlags_mem s f) (setFlags_pending s f) (setFlags_out s f)

theorem writeBack_keepsRest (s : State) (r : Target) (v : Byte) (f : Flags) : keepsRest s (writeBack r v f s) :=
  keepsRest_of_fields (writeBack_pc s r v f) (writeBack_mem s r v f) (writeBack_pending s r v f) (writeBack_out s r v f)

theorem writeBackHL_keepsRest (s : State) (w : Pair) (f : Flags) : keepsRest s (writeBackHL w f s) :=
  keepsRest_of_fields (writeBackHL_pc s w f) (writeBackHL_mem s w f) (writeBackHL_pending s w f) (writeBackHL_out s w f)

theorem setReg_keepsRest (t : Target) (v : Byte) (s : State) : keepsRest s (setReg t v s) :=
  keepsRest_of_fields (setReg_pc s t v) (setReg_mem s t v) (setReg_pending s t v) (setReg_out s t v)

theorem keepsRest_trans {s s' s'' : State} (h : keepsRest s s') (h' : keepsRest s' s'') : keepsRest s s'' := by
  obtain ⟨hpc, hmem, -, hpending, hout⟩ := h
  obtain ⟨hpc', hmem', -, hpending', hout'⟩ := h'
  exact keepsRest_of_fields (hpc'.trans hpc) (hmem'.trans hmem) (hpending'.trans hpending) (hout'.trans hout)

/-- 10_state R26: an instruction moves nothing beside registers and flags. -/
theorem exec_keepsRest {i : Instr} {s s' : State} (h : exec i s = .next s') : keepsRest s s' := by
  obtain ⟨o, t, rfl⟩ | rfl := instr_cases i
  · obtain ⟨f, ⟨r, v, he⟩ | ⟨v, he⟩ | he⟩ := exec_instrOf_shape o t s <;>
      obtain rfl := Host.Outcome.next.inj (he.symm.trans h)
    · exact writeBack_keepsRest s r v f
    · exact writeBackHL_keepsRest s v f
    · exact setFlags_keepsRest s f
  · obtain rfl := Host.Outcome.next.inj ((exec_ccf s).symm.trans h)
    exact setFlags_keepsRest s _

/-- A step by a word, defined or reserved, moves neither `pc` nor memory nor the driver's queue. -/
theorem executeWord_keeps {w : Byte} {s s' : State} (h : executeWord w s = .next s') :
    s'.pc = s.pc ∧ s'.mem = s.mem ∧ s'.pending = s.pending := by
  obtain ⟨i, -, he⟩ | ⟨r, -, he⟩ := executeWord_cases w s
  · obtain ⟨hpc, hmem, -, hpending, -⟩ := exec_keepsRest (he.symm.trans h)
    exact ⟨hpc, hmem, hpending⟩
  · obtain rfl := Host.Outcome.next.inj (he.symm.trans h)
    exact ⟨rfl, rfl, rfl⟩

/-- A clock edge that answers a next state is a reset, or leaves `pc`, memory and the driver's queue. -/
theorem clockEdge_reset_or_keeps {cfg : Config} {p : Pins} {s s' : State} (h : clockEdge cfg p s = .next s') :
    (p.rst = true ∧ s' = applyReset cfg s) ∨ (s'.pc = s.pc ∧ s'.mem = s.mem ∧ s'.pending = s.pending) := by
  obtain ⟨hrst, he⟩ | ⟨-, -, -, he⟩ | ⟨-, -, -, he⟩ | ⟨-, -, -, he⟩ | ⟨-, -, -, he⟩ := clockEdge_cases cfg p s
  · exact .inl ⟨hrst, Host.Outcome.next.inj (h.symm.trans he)⟩
  · cases he.symm.trans h
  · exact .inr (executeWord_keeps (he.symm.trans h))
  · obtain rfl := Host.Outcome.next.inj (he.symm.trans h)
    obtain ⟨hpc, hmem, hpending, -⟩ := hostSet_rest p.hwSel p.hwData s
    exact .inr ⟨hpc, hmem, hpending⟩
  · obtain rfl := Host.Outcome.next.inj (he.symm.trans h)
    exact .inr ⟨rfl, rfl, rfl⟩

/-- An operation of the driver that answers a next state is a reset edge, or leaves `pc`, memory and the driver's queue. -/
theorem runDriverOp_reset_or_keeps {cfg : Config} {op : DriverOp} {s s' : State}
    (h : runDriverOp cfg op s = .next s') :
    (∃ p, op = .clock p ∧ p.rst = true ∧ s' = applyReset cfg s) ∨
      (s'.pc = s.pc ∧ s'.mem = s.mem ∧ s'.pending = s.pending) := by
  cases op with
  | clock p => exact (clockEdge_reset_or_keeps h).imp_left fun ⟨hrst, hs'⟩ => ⟨p, rfl, hrst, hs'⟩
  | readByte addr =>
    obtain ⟨-, he⟩ | ⟨-, he⟩ := hostRead_cases cfg addr s
    · obtain rfl := Host.Outcome.next.inj (he.symm.trans h)
      exact .inr ⟨rfl, rfl, rfl⟩
    · cases he.symm.trans h

/-- A step that answers a next state is a reset edge at the queue's head, or leaves `pc` and memory and takes
one operation off the queue. -/
theorem step_reset_or_keeps {s s' : State} (h : step s = .next s') :
    (∃ p rest, nextEdge s p rest ∧ p.rst = true ∧ s' = applyReset hardware { s with pending := rest }) ∨
      (s'.pc = s.pc ∧ s'.mem = s.mem ∧ s'.pending = s.pending.tail) := by
  cases hq : s.pending with
  | nil =>
    obtain rfl := Host.Outcome.next.inj ((step_nil hq).symm.trans h)
    exact .inr ⟨rfl, rfl, hq⟩
  | cons op rest =>
    obtain ⟨p, rfl, hrst, hs'⟩ | hkeeps := runDriverOp_reset_or_keeps ((step_cons hq).symm.trans h)
    · exact .inl ⟨p, rest, hq, hrst, hs'⟩
    · exact .inr hkeeps

end Sys2Proof.Proofs
end

