-- ==== Sys2Proof/Proofs/Noninterference.lean ====
section
/-! PROOF. What an instruction reads (10_state R15, R26): two states that agree on the registers, and for ADC and SBC on
carry, give next states that agree. -/

namespace Sys2Proof.Proofs

open Sys2Proof.Machine Sys2Proof.Claims Sys2Proof.Laws

/-- Two flag registers with the same four flags are the same. -/
theorem flags_eq {f g : Flags} (hz : g.z = f.z) (hn : g.n = f.n) (hh : g.h = f.h) (hc : g.c = f.c) : g = f := by
  obtain ⟨z, n, h, c⟩ := f
  obtain ⟨z', n', h', c'⟩ := g
  exact Flags.mk.injEq .. ▸ ⟨hz, hn, hh, hc⟩

/-- Both outcomes are next states; they agree on every register, on zero, subtract and half_carry, and, if `carryToo`
holds, on carry. -/
def NextStatesAgree (carryToo : Prop) (x y : Host.Outcome State Fault Refusal) : Prop :=
  ∃ s' u', x = .next s' ∧ y = .next u' ∧ sameRegs s' u' ∧
    u'.f.z = s'.f.z ∧ u'.f.n = s'.f.n ∧ u'.f.h = s'.f.h ∧ (carryToo → u'.f.c = s'.f.c)

section SameRegs

variable {s u : State} (hregs : sameRegs s u)
include hregs

theorem operand_of_sameRegs (t : Target) : operand t u = operand t s := hregs t

theorem accumulator_of_sameRegs : accumulator u = accumulator s := hregs .a

theorem getHL_of_sameRegs : getHL u = getHL s := congrArg₂ (· ++ ·) (hregs .h) (hregs .l)

theorem sameRegs_setReg (r : Target) (v : Byte) : sameRegs (setReg r v s) (setReg r v u) := fun t => by
  rw [getReg_setReg, getReg_setReg, hregs t]

theorem sameRegs_setFlags (f g : Flags) : sameRegs (setFlags f s) (setFlags g u) := fun t => by
  rw [getReg_setFlags, getReg_setFlags, hregs t]

variable {carryToo : Prop} {z n h c c' : Bool} (hcarry : carryToo → c' = c)
include hcarry

theorem setFlags_agree :
    NextStatesAgree carryToo (.next (setFlags ⟨z, n, h, c⟩ s)) (.next (setFlags ⟨z, n, h, c'⟩ u)) :=
  ⟨_, _, rfl, rfl, sameRegs_setFlags hregs _ _, rfl, rfl, rfl, hcarry⟩

theorem writeBack_agree (r : Target) (v : Byte) :
    NextStatesAgree carryToo (.next (writeBack r v ⟨z, n, h, c⟩ s)) (.next (writeBack r v ⟨z, n, h, c'⟩ u)) :=
  setFlags_agree (sameRegs_setReg hregs r v) hcarry

theorem writeBackHL_agree (w : Pair) :
    NextStatesAgree carryToo (.next (writeBackHL w ⟨z, n, h, c⟩ s)) (.next (writeBackHL w ⟨z, n, h, c'⟩ u)) := by
  rw [writeBackHL_eq_setReg, writeBackHL_eq_setReg]
  exact setFlags_agree (sameRegs_setReg (sameRegs_setReg hregs .l (lowByte w)) .h (highByte w)) hcarry

end SameRegs

/-- The readers of carry are ADC and SBC, whose results depend on it; INC and DEC pass it on; no operation reads
anything else but registers (the table of 10_state R15). -/
theorem exec_instrOf_agree {carryToo : Prop} (o : Op) (t : Target) {s u : State} (hregs : sameRegs s u)
    (hread : o = .adc ∨ o = .sbc → u.f.c = s.f.c) (hkept : carryToo → o = .inc ∨ o = .dec → u.f.c = s.f.c) :
    NextStatesAgree carryToo (exec (instrOf o t) s) (exec (instrOf o t) u) := by
  have ha := accumulator_of_sameRegs hregs
  have hv := operand_of_sameRegs hregs t
  cases o with
  | add =>
    simp only [exec_add, runAdd, ha, hv]
    exact writeBack_agree hregs (fun _ => rfl) ..
  | adc =>
    have hcin : carryIn u = carryIn s := congrArg bit (hread (.inl rfl))
    simp only [exec_adc, runAdc, ha, hv, hcin]
    exact writeBack_agree hregs (fun _ => rfl) ..
  | addhl =>
    simp only [exec_addhl, runAddhl, ha, hv, getHL_of_sameRegs hregs]
    exact writeBackHL_agree hregs (fun _ => rfl) ..
  | and =>
    simp only [exec_and, runAnd, ha, hv]
    exact writeBack_agree hregs (fun _ => rfl) ..
  | or =>
    simp only [exec_or, runOr, ha, hv]
    exact writeBack_agree hregs (fun _ => rfl) ..
  | xor =>
    simp only [exec_xor, runXor, ha, hv]
    exact writeBack_agree hregs (fun _ => rfl) ..
  | sub =>
    simp only [exec_sub, runSub, ha, hv]
    exact writeBack_agree hregs (fun _ => rfl) ..
  | sbc =>
    have hcin : carryIn u = carryIn s := congrArg bit (hread (.inr rfl))
    simp only [exec_sbc, runSbc, ha, hv, hcin]
    exact writeBack_agree hregs (fun _ => rfl) ..
  | cp =>
    simp only [exec_cp, runCp, ha, hv]
    exact setFlags_agree hregs (fun _ => rfl)
  | inc =>
    simp only [exec_inc, runInc, hv]
    exact writeBack_agree hregs (fun hp => hkept hp (.inl rfl)) ..
  | dec =>
    simp only [exec_dec, runDec, hv]
    exact writeBack_agree hregs (fun hp => hkept hp (.inr rfl)) ..

/-- Settles O38: an operation with a target by `exec_instrOf_agree`, and CCF by its one arm. -/
theorem onlyRegistersAndCarryAreRead : Obligations.OnlyRegistersAndCarryAreRead := by
  unfold Obligations.OnlyRegistersAndCarryAreRead
  intro i s u hregs hcarry
  obtain ⟨o, t, rfl⟩ | rfl := instr_cases i
  · obtain ⟨s', u', hs, hu, hregs', hz, hn, hh, hc⟩ :=
      exec_instrOf_agree (carryToo := True) o t hregs (fun _ => hcarry) (fun _ _ => hcarry)
    exact ⟨s', u', hs, hu, hregs', hc trivial, fun _ => flags_eq hz hn hh (hc trivial)⟩
  · exact ⟨_, _, exec_ccf s, exec_ccf u, sameRegs_setFlags hregs _ _, congrArg (!·) hcarry, fun hne => absurd rfl hne⟩

/-- Settles O39: an operation other than ADC and SBC meets `exec_instrOf_agree` whatever the carries are. -/
theorem onlyAdcAndSbcReadCarry : Obligations.OnlyAdcAndSbcReadCarry := by
  unfold Obligations.OnlyAdcAndSbcReadCarry
  intro o t s u hadc hsbc hregs
  obtain ⟨s', u', hs, hu, hregs', hz, hn, hh, hc⟩ :=
    exec_instrOf_agree (carryToo := o ≠ .inc ∧ o ≠ .dec) o t hregs (fun ho => (ho.elim hadc hsbc).elim)
      (fun ⟨hinc, hdec⟩ ho => (ho.elim hinc hdec).elim)
  exact ⟨s', u', hs, hu, hregs', hz, hn, hh, fun hinc hdec => hc ⟨hinc, hdec⟩⟩

end Sys2Proof.Proofs
end

