-- ==== Sys2Proof/Proofs/Untouched.lean ====
section
/-! PROOF. The invariant of `pc` and memory (10_state R20, R21, 20_memory R33), and the state after reset (10_state R24). -/

namespace Sys2Proof.Proofs

open Sys2Proof.Machine Sys2Proof.Claims Sys2Proof.Laws

/-- Of a memory that lists nothing every address of the surface reads 0 (10_state R24). -/
theorem readByte_of_mem_nil {cfg : Config} {addr : Pair} {s : State} (hmem : s.mem = [])
    (haddr : addr.toNat < cfg.memSize) : readByte cfg addr s = .ok 0 := by
  rw [readByte, if_pos haddr, hmem]
  rfl

theorem untouched_of_mem_nil {s : State} (hpc : s.pc = 0) (hmem : s.mem = []) : Untouched s :=
  ⟨hpc, fun _ => readByte_of_mem_nil hmem⟩

theorem untouched_congr {s s' : State} (hpc : s'.pc = s.pc) (hmem : s'.mem = s.mem) (h : Untouched s) : Untouched s' := by
  obtain ⟨hzero, hreads⟩ := h
  exact ⟨hpc.trans hzero, fun addr haddr => (readByte_congr hmem hardware addr).trans (hreads addr haddr)⟩

theorem untouched_reset : Untouched State.reset := untouched_of_mem_nil rfl rfl

/-- Settles O40: a reset edge puts `pc` and memory at their reset values, and every other step leaves them. -/
theorem untouchedIsKeptByEveryStep : Obligations.UntouchedIsKeptByEveryStep := by
  unfold Obligations.UntouchedIsKeptByEveryStep
  intro s s' hs h
  obtain ⟨p, rest, -, -, rfl⟩ | ⟨hpc, hmem, -⟩ := step_reset_or_keeps h
  · exact untouched_of_mem_nil (applyReset_pc _ _) (applyReset_mem _ _)
  · exact untouched_congr hpc hmem hs

/-- Settles O43: the two cases of `step_reset_or_keeps`. -/
theorem onlyResetMovesPcOrMemory : Obligations.OnlyResetMovesPcOrMemory := by
  unfold Obligations.OnlyResetMovesPcOrMemory
  intro s s' h
  obtain ⟨p, rest, hnext, hrst, -⟩ | ⟨hpc, hmem, -⟩ := step_reset_or_keeps h
  · exact .inl ⟨p, rest, hnext, hrst⟩
  · exact .inr ⟨hpc, hmem, readByte_congr hmem⟩

/-- Settles O41: the memory list after reset is empty. -/
theorem resetMeetsTheInvariants : Obligations.ResetMeetsTheInvariants := by
  unfold Obligations.ResetMeetsTheInvariants
  exact ⟨untouched_reset, wf_reset, rfl⟩

/-- Settles O1: the registers and flags by `State.reset`, the memory by `untouched_reset`. -/
theorem resetLeavesAllZero : Obligations.ResetLeavesAllZero := by
  unfold Obligations.ResetLeavesAllZero
  obtain ⟨hpc, hreads⟩ := untouched_reset
  have hregs : ∀ t, getReg t State.reset = 0 := fun t => by cases t <;> rfl
  exact ⟨hregs, rfl, rfl, rfl, rfl, hpc, fun addr haddr => hreads addr (Nat.lt_succ_of_le haddr), rfl, rfl, rfl, rfl⟩

end Sys2Proof.Proofs
end

