-- ==== Sys2Proof/Proofs/Views.lean ====
section
/-! PROOF. The four combined views (10_state R16 to R19): two bytes as a pair, the packed flags, and the writes. -/

namespace Sys2Proof.Proofs

open Sys2Proof.Machine Sys2Proof.Claims Sys2Proof.Laws

/-- The concatenation of two bytes as a number (10_state R16). -/
theorem toNat_append_bytes (x y : Byte) : (x ++ y).toNat = 256 * x.toNat + y.toNat := by
  have hy : y.toNat < 2 ^ 8 := y.isLt
  rw [BitVec.toNat_append, ← Nat.shiftLeft_add_eq_or_of_lt hy, Nat.shiftLeft_eq]
  omega

theorem toNat_highByte (v : Pair) : (highByte v).toNat = v.toNat / 256 := by
  have hv : v.toNat < 2 ^ 16 := v.isLt
  rw [highByte, BitVec.extractLsb'_toNat, Nat.shiftRight_eq_div_pow]
  omega

theorem toNat_lowByte (v : Pair) : (lowByte v).toNat = v.toNat % 256 := by
  rw [lowByte, BitVec.extractLsb'_toNat, Nat.shiftRight_zero]

/-- The two bytes of a pair make it up again (10_state R17). -/
theorem highByte_append_lowByte (v : Pair) : highByte v ++ lowByte v = v := by
  apply BitVec.eq_of_toNat_eq
  rw [toNat_append_bytes, toNat_highByte, toNat_lowByte]
  omega

/-- Settles O4: each view is the concatenation of its two registers. -/
theorem pairViewsConcatenate : Obligations.PairViewsConcatenate := by
  unfold Obligations.PairViewsConcatenate
  exact fun s => ⟨toNat_append_bytes s.b s.c, toNat_append_bytes s.d s.e, toNat_append_bytes s.h s.l⟩

/-- The split write of a pair into two registers (10_state R17): it reads back by concatenation, and nothing else moves. -/
theorem split_write_reads_back {hi lo : Target} (hne : hi ≠ lo) (v : Pair) (s : State) :
    let s' := setReg hi (highByte v) (setReg lo (lowByte v) s)
    getReg hi s' ++ getReg lo s' = v ∧ regNat hi s' = v.toNat / 256 ∧ regNat lo s' = v.toNat % 256 ∧
      keepsRegs [hi, lo] s s' ∧ s'.f = s.f ∧ keepsRest s s' := by
  intro s'
  have hhi : getReg hi s' = highByte v := by rw [getReg_setReg, if_pos rfl]
  have hlo : getReg lo s' = lowByte v := by rw [getReg_setReg, if_neg hne.symm, getReg_setReg, if_pos rfl]
  have hother : keepsRegs [hi, lo] s s' := fun t ht => by
    rw [List.mem_pair, not_or] at ht
    rw [getReg_setReg, if_neg ht.1, getReg_setReg, if_neg ht.2]
  refine ⟨?_, ?_, ?_, hother, ?_, ?_⟩
  · rw [hhi, hlo, highByte_append_lowByte]
  · rw [regNat, hhi, toNat_highByte]
  · rw [regNat, hlo, toNat_lowByte]
  · rw [setReg_f, setReg_f]
  · exact keepsRest_trans (setReg_keepsRest lo _ s) (setReg_keepsRest hi _ _)

/-- Settles O5: the write of each view is the split write into its two registers. -/
theorem pairViewWriteReadsBack : Obligations.PairViewWriteReadsBack := by
  unfold Obligations.PairViewWriteReadsBack
  intro v s
  have hbc := split_write_reads_back (hi := .b) (lo := .c) (by decide) v s
  have hde := split_write_reads_back (hi := .d) (lo := .e) (by decide) v s
  have hhl := split_write_reads_back (hi := .h) (lo := .l) (by decide) v s
  exact ⟨hbc, hde, hhl⟩

/-- The packed flags as a number: zero in bit 7 down to carry in bit 4 (40_codec_regfile R60). -/
theorem toNat_encodeFlags (f : Flags) :
    (encodeFlags f).toNat = 128 * f.z.toNat + 64 * f.n.toNat + 32 * f.h.toNat + 16 * f.c.toNat := by
  obtain ⟨z, n, h, c⟩ := f
  revert z n h c
  decide

/-- The packed flags bit by bit, from bit 0 (40_codec_regfile R60). -/
theorem getLsbD_encodeFlags (f : Flags) {i : Nat} (hi : i < 8) :
    (encodeFlags f).getLsbD i = [false, false, false, false, f.c, f.h, f.n, f.z].getD i false := by
  obtain ⟨z, n, h, c⟩ := f
  interval_cases i <;> revert z n h c <;> decide

/-- Decoding and packing again clears the low nibble, which the flags do not hold (40_codec_regfile R62). -/
theorem encodeFlags_decodeFlags (b : Byte) : encodeFlags (decodeFlags b) = b &&& 0xF0 := by
  refine BitVec.eq_of_getLsbD_eq fun i hi => ?_
  rw [getLsbD_encodeFlags _ hi]
  interval_cases i <;> simp [decodeFlags]

/-- AF is A and the packed flags, concatenated (10_state R18). -/
theorem getAF_eq_append (s : State) : getAF s = getReg .a s ++ encodeFlags s.f := by
  rw [BitVec.append_def, BitVec.shiftLeftZeroExtend_eq, BitVec.setWidth'_eq]
  rfl

/-- Settles O6: `getAF_eq_append` in numbers. -/
theorem afViewPacksAccumulatorAndFlags : Obligations.AfViewPacksAccumulatorAndFlags := by
  unfold Obligations.AfViewPacksAccumulatorAndFlags
  intro s
  have hsum : (getAF s).toNat =
      256 * regNat .a s + 128 * s.f.z.toNat + 64 * s.f.n.toNat + 32 * s.f.h.toNat + 16 * s.f.c.toNat := by
    rw [getAF_eq_append, toNat_append_bytes, toNat_encodeFlags, regNat]
    omega
  exact ⟨hsum, by omega, getAF_eq_append s⟩

/-- The flags a pair's low byte decodes to, as bits of the pair (10_state R19). -/
theorem decodeFlags_lowByte (v : Pair) :
    decodeFlags (lowByte v) = ⟨v.getLsbD 7, v.getLsbD 6, v.getLsbD 5, v.getLsbD 4⟩ := by
  simp [decodeFlags, lowByte]

/-- AF after its write: the value, but for the low nibble (10_state R19). -/
theorem getAF_setAF (v : Pair) (s : State) : getAF (setAF v s) = v &&& 0xFFF0 :=
  calc getAF (setAF v s)
      = highByte v ++ encodeFlags (decodeFlags (lowByte v)) := getAF_eq_append _
    _ = (highByte v &&& 0xFF) ++ (lowByte v &&& 0xF0) := by
        rw [encodeFlags_decodeFlags, show (0xFF : Byte) = BitVec.allOnes 8 from rfl, BitVec.and_allOnes]
    _ = (highByte v ++ lowByte v) &&& (0xFF ++ 0xF0 : BitVec (8 + 8)) := BitVec.and_append.symm
    _ = v &&& 0xFFF0 := by rw [highByte_append_lowByte]; rfl

/-- Settles O7: the value read back by `getAF_setAF`, the frame field by field. -/
theorem afViewWriteDropsLowNibble : Obligations.AfViewWriteDropsLowNibble := by
  unfold Obligations.AfViewWriteDropsLowNibble
  intro v s
  have hother : keepsRegs [.a] s (setAF v s) := fun t ht => by
    cases t with
    | a => exact absurd (List.mem_singleton.mpr rfl) ht
    | b | c | d | e | h | l => rfl
  exact ⟨getAF_setAF v s, toNat_highByte v, decodeFlags_lowByte v, rfl, hother, keepsRest_of_fields rfl rfl rfl rfl⟩

end Sys2Proof.Proofs
end

