-- ==== Sys2Proof/Proofs/HostRead.lean ====
section
/-! PROOF. The memory surface as the host reads it (20_memory R30 to R33): what a canonical list holds, when a read faults, and
that every step keeps the canonical form. -/

namespace Sys2Proof.Proofs

open Sys2Proof.Machine Sys2Proof.Claims Sys2Proof.Laws

/-- The model's read answers a byte the list holds, canonical or not. -/
theorem memoryHolds_read (m : Memory) (addr : Nat) : memoryHolds m addr (Memory.read m addr) := read_cases m addr

/-- In a canonical list the byte read is the only one held: a listed address is listed once, and an unlisted one holds 0. -/
theorem memoryHolds_iff_eq_read {m : Memory} (hwf : Memory.wf m = true) (addr : Nat) (b : Byte) :
    memoryHolds m addr b ↔ b = Memory.read m addr := by
  constructor
  · rintro (hlisted | ⟨hunlisted, hzero⟩)
    · exact (read_of_mem hwf hlisted).symm
    · obtain hlisted | ⟨-, hread⟩ := read_cases m addr
      · exact absurd hlisted (hunlisted _)
      · exact hzero.trans hread.symm
  · rintro rfl
    exact memoryHolds_read m addr

/-- A read inside the surface (20_memory R31). -/
theorem readByte_of_lt {cfg : Config} {addr : Pair} (haddr : addr.toNat < cfg.memSize) (s : State) :
    readByte cfg addr s = .ok (Memory.read s.mem addr.toNat) := if_pos haddr

/-- A read outside the surface (20_memory R32). -/
theorem readByte_of_le {cfg : Config} {addr : Pair} (haddr : cfg.memSize ≤ addr.toNat) (s : State) :
    readByte cfg addr s = .error (.memFault addr) := if_neg haddr.not_gt

theorem readByte_eq_memFault_iff (cfg : Config) (addr : Pair) (s : State) :
    readByte cfg addr s = .error (.memFault addr) ↔ cfg.memSize ≤ addr.toNat := by
  refine ⟨fun h => ?_, fun haddr => readByte_of_le haddr s⟩
  by_contra hlt
  cases (readByte_of_lt (Nat.lt_of_not_le hlt) s).symm.trans h

theorem hostRead_eq_memFault_iff (cfg : Config) (addr : Pair) (s : State) :
    hostRead cfg addr s = .fault (.memFault addr) ↔ cfg.memSize ≤ addr.toNat := by
  obtain ⟨hlt, he⟩ | ⟨hle, he⟩ := hostRead_cases cfg addr s
  · rw [he]
    exact ⟨fun h => (nomatch h), fun hle => absurd hlt hle.not_gt⟩
  · exact iff_of_true he hle

/-- The one address above the surface of this hardware (20_memory R32). -/
theorem hardware_memSize_le_iff (addr : Pair) : hardware.memSize ≤ addr.toNat ↔ addr = 0xFFFF := by
  change 65535 ≤ addr.toNat ↔ addr = 0xFFFF
  bv_omega

/-- A host read inside the surface shows the byte and consumes itself. -/
theorem step_readByte_of_lt {addr : Pair} {s : State} {rest : List DriverOp} (hq : s.pending = .readByte addr :: rest)
    (haddr : addr.toNat < hardware.memSize) :
    step s = .next { s with pending := rest, out := ⟨false, some (Memory.read s.mem addr.toNat)⟩ } := by
  rw [step_cons hq, runDriverOp, hostRead, readByte_of_lt haddr]
  rfl

/-- A host read outside the surface stops the machine. -/
theorem step_readByte_of_le {addr : Pair} {s : State} {rest : List DriverOp} (hq : s.pending = .readByte addr :: rest)
    (haddr : hardware.memSize ≤ addr.toNat) : step s = .fault (.memFault addr) := by
  rw [step_cons hq, runDriverOp]
  exact (hostRead_eq_memFault_iff _ _ _).2 haddr

/-- The canonical form is a property of the memory alone. -/
theorem memoryCanonical_congr {s s' : State} (hmem : s'.mem = s.mem) (h : MemoryCanonical s) : MemoryCanonical s' := by
  unfold MemoryCanonical at h ⊢
  rwa [hmem]

/-- Settles O42: a reset edge puts the reset memory, which is canonical, and every other step leaves the memory. -/
theorem memoryCanonicalIsKeptByEveryStep : Obligations.MemoryCanonicalIsKeptByEveryStep := by
  unfold Obligations.MemoryCanonicalIsKeptByEveryStep
  intro s s' hs h
  obtain ⟨-, hreset⟩ := resetMeetsTheInvariants
  obtain ⟨p, rest, -, -, rfl⟩ | ⟨-, hmem, -⟩ := step_reset_or_keeps h
  · exact memoryCanonical_congr (applyReset_mem _ _) hreset
  · exact memoryCanonical_congr hmem hs

/-- Settles O48: the byte is the one `Memory.read` finds, `memoryHolds_iff_eq_read` says it is the only one, and the
read is repeated on the same memory. -/
theorem hostReadAnswersOrFaults : Obligations.HostReadAnswersOrFaults := by
  unfold Obligations.HostReadAnswersOrFaults
  intro addr s rest hq
  constructor
  · intro hle
    have haddr : addr.toNat < hardware.memSize := Nat.lt_succ_of_le hle
    exact ⟨Memory.read s.mem addr.toNat, readByte_of_lt haddr s, memoryHolds_read s.mem addr.toNat,
      fun ⟨hwf, _⟩ b => (memoryHolds_iff_eq_read hwf addr.toNat b).1, step_readByte_of_lt hq haddr, readByte_of_lt haddr _⟩
  · rintro rfl
    exact step_readByte_of_le hq ((hardware_memSize_le_iff _).2 rfl)

/-- Settles O52: after the edge the memory is the image, in which the byte read is the only one held. -/
theorem readAfterResetAnswersTheImage : Obligations.ReadAfterResetAnswersTheImage := by
  unfold Obligations.ReadAfterResetAnswersTheImage
  intro cfg p s hrst hwf
  have hedge : clockEdge cfg p s = .next (applyReset cfg s) := by rw [clockEdge, hrst]
  exact ⟨applyReset cfg s, hedge, fun addr haddr =>
    ⟨Memory.read cfg.memImage addr.toNat, readByte_of_lt haddr _, memoryHolds_iff_eq_read hwf addr.toNat⟩⟩

/-- Settles O47: the fault of the read for every size of the surface, then for this hardware's, then for a surface that
every address is in. -/
theorem readByteFaultsExactlyAboveMemSize : Obligations.ReadByteFaultsExactlyAboveMemSize := by
  unfold Obligations.ReadByteFaultsExactlyAboveMemSize
  exact ⟨hostRead_eq_memFault_iff, readByte_eq_memFault_iff,
    fun addr s => (readByte_eq_memFault_iff hardware addr s).trans (hardware_memSize_le_iff addr),
    fun addr s => ⟨_, readByte_of_lt addr.isLt s⟩⟩

end Sys2Proof.Proofs
end

