-- ==== Sys2Proof/Proofs/Encoding.lean ====
section
/-! PROOF. The decoder of the instruction port: its fields as numbers, what each of the 256 words decodes to (30_encoding R46 to
R52), and that the encoder is its inverse. -/

namespace Sys2Proof.Proofs

open Sys2Proof.Claims Sys2Proof.Laws

theorem zField_eq_true_iff (w : Byte) : zField w = true ↔ w.toNat / 8 % 2 = 1 := by
  simp [zField, BitVec.getLsbD, Nat.testBit_eq_decide_div_mod_eq]

theorem toNat_opField (w : Byte) : (opField w).toNat = w.toNat / 16 := by
  rw [opField, BitVec.extractLsb'_toNat, Nat.shiftRight_eq_div_pow]
  omega

theorem toNat_tgtField (w : Byte) : (tgtField w).toNat = w.toNat % 8 := by
  rw [tgtField, BitVec.extractLsb'_toNat, Nat.shiftRight_zero]

theorem targetCode_le (t : Target) : targetCode t ≤ 6 := by cases t <;> decide

theorem opCode_le (o : Op) : opCode o ≤ 10 := by cases o <;> decide

/-- The decoder's target table against the rule's (30_encoding R49): the codes 0 to 6 name a target, 7 names none. -/
theorem targetOf_eq_some_iff (code : BitVec 3) (t : Target) : targetOf code = some t ↔ code.toNat = targetCode t := by
  revert code
  cases t <;> decide

theorem targetOf_eq_none_iff (code : BitVec 3) : targetOf code = none ↔ code.toNat = 7 := by
  revert code
  decide

/-- The decoder's operation table against the rule's (30_encoding R47): the codes 0x0 to 0xA name an operation with a target. -/
theorem opOf_eq_some_iff (code : BitVec 4) (o : Op) : opOf code = some o ↔ code.toNat = opCode o := by
  revert code
  cases o <;> decide

theorem opOf_eq_none_iff (code : BitVec 4) : opOf code = none ↔ 11 ≤ code.toNat := by
  revert code
  decide

theorem toNat_wordFor (o : Op) (t : Target) : (wordFor (opCode o) t).toNat = 16 * opCode o + targetCode t := by
  have ho := opCode_le o
  have ht := targetCode_le t
  rw [wordFor, BitVec.toNat_ofNat]
  omega

/-- The words each class of reserved words holds (30_encoding R50), by the numbers of their fields. -/
def IsReservedAs : Reserved → Nat → Prop
  | .mustBeZeroBit, n => n / 8 % 2 = 1
  | .operation, n => n / 8 % 2 = 0 ∧ 12 ≤ n / 16
  | .target, n => n / 8 % 2 = 0 ∧ n / 16 ≤ 10 ∧ n % 8 = 7
  | .ccfTarget, n => 0xB1 ≤ n ∧ n ≤ 0xB7

theorem zField_eq_false {w : Byte} (h : w.toNat / 8 % 2 = 0) : zField w = false := by
  rw [← Bool.not_eq_true, zField_eq_true_iff, h]
  decide

/-- CCF's operation code is 0xB (30_encoding R47). -/
theorem opField_eq_ccf_iff (w : Byte) : opField w = 0xB ↔ w.toNat / 16 = 11 := by
  rw [← BitVec.toNat_inj, toNat_opField]
  rfl

/-- CCF's target field is 0 (30_encoding R49). -/
theorem tgtField_eq_zero_iff (w : Byte) : tgtField w = 0 ↔ w.toNat % 8 = 0 := by
  rw [← BitVec.toNat_inj, toNat_tgtField]
  rfl

/-- Each class of reserved words is rejected by its name (30_encoding R50). -/
theorem decode_of_isReservedAs {w : Byte} {r : Reserved} (h : IsReservedAs r w.toNat) : decode w = .error r := by
  cases r with
  | mustBeZeroBit => exact if_pos ((zField_eq_true_iff w).2 h)
  | operation =>
    obtain ⟨hz, hop⟩ := h
    have hnot : ¬ opField w = 0xB := by rw [opField_eq_ccf_iff]; omega
    have hnone : opOf (opField w) = none := by rw [opOf_eq_none_iff, toNat_opField]; omega
    simp only [decode, zField_eq_false hz, hnot, hnone, Bool.false_eq_true, if_false]
  | target =>
    obtain ⟨hz, hop, htgt⟩ := h
    have hnot : ¬ opField w = 0xB := by rw [opField_eq_ccf_iff]; omega
    have hnone : targetOf (tgtField w) = none := by rw [targetOf_eq_none_iff, toNat_tgtField, htgt]
    cases hop' : opOf (opField w) with
    | none =>
      rw [opOf_eq_none_iff, toNat_opField] at hop'
      omega
    | some o => simp only [decode, zField_eq_false hz, hnot, hop', hnone, Bool.false_eq_true, if_false]
  | ccfTarget =>
    obtain ⟨hlo, hhi⟩ := h
    have hz : zField w = false := zField_eq_false (by omega)
    have hop : opField w = 0xB := by rw [opField_eq_ccf_iff]; omega
    have htgt : ¬ tgtField w = 0 := by rw [tgtField_eq_zero_iff]; omega
    simp only [decode, hz, hop, htgt, Bool.false_eq_true, if_false, if_true]

/-- The word of an operation and a target decodes to their instruction (30_encoding R52). -/
theorem decode_wordFor (o : Op) (t : Target) : decode (wordFor (opCode o) t) = .ok (instrOf o t) := by
  have hn := toNat_wordFor o t
  have ho := opCode_le o
  have ht := targetCode_le t
  have hz : zField (wordFor (opCode o) t) = false := zField_eq_false (by omega)
  have hnot : ¬ opField (wordFor (opCode o) t) = 0xB := by rw [opField_eq_ccf_iff]; omega
  have hop : opOf (opField (wordFor (opCode o) t)) = some o := by rw [opOf_eq_some_iff, toNat_opField]; omega
  have htgt : targetOf (tgtField (wordFor (opCode o) t)) = some t := by rw [targetOf_eq_some_iff, toNat_tgtField]; omega
  simp only [decode, hz, hnot, hop, htgt, Bool.false_eq_true, if_false]

/-- CCF's word, the one word of its operation (30_encoding R52). -/
theorem decode_ccf : decode 0xB0 = .ok .ccf := rfl

/-- Every word is reserved in a class, or CCF's word, or the word of an operation and a target (30_encoding R50, R52). -/
theorem word_cases (w : Byte) :
    (∃ r, IsReservedAs r w.toNat) ∨ w = 0xB0 ∨ ∃ o t, w = wordFor (opCode o) t := by
  by_cases hz : w.toNat / 8 % 2 = 1
  · exact .inl ⟨.mustBeZeroBit, hz⟩
  cases ho : opOf (opField w) with
  | none =>
    rw [opOf_eq_none_iff, toNat_opField] at ho
    by_cases hop : 12 ≤ w.toNat / 16
    · exact .inl ⟨.operation, by omega, hop⟩
    by_cases htgt : w.toNat % 8 = 0
    · exact .inr (.inl (by bv_omega))
    · exact .inl ⟨.ccfTarget, by omega, by omega⟩
  | some o =>
    rw [opOf_eq_some_iff, toNat_opField] at ho
    have hle := opCode_le o
    cases ht : targetOf (tgtField w) with
    | none =>
      rw [targetOf_eq_none_iff, toNat_tgtField] at ht
      exact .inl ⟨.target, by omega, by omega, ht⟩
    | some t =>
      rw [targetOf_eq_some_iff, toNat_tgtField] at ht
      exact .inr (.inr ⟨o, t, BitVec.eq_of_toNat_eq (by rw [toNat_wordFor]; omega)⟩)

/-- A word is rejected by the name of a class exactly when it is in the class (30_encoding R50). -/
theorem decode_eq_error_iff (w : Byte) (r : Reserved) : decode w = .error r ↔ IsReservedAs r w.toNat := by
  refine ⟨fun h => ?_, decode_of_isReservedAs⟩
  obtain ⟨r', hr'⟩ | rfl | ⟨o, t, rfl⟩ := word_cases w
  · cases h.symm.trans (decode_of_isReservedAs hr')
    exact hr'
  · cases h.symm.trans decode_ccf
  · cases h.symm.trans (decode_wordFor o t)

/-- The encoder puts the codes of the operation and the target in their fields (30_encoding R46). -/
theorem encode_instrOf (o : Op) (t : Target) : encode (instrOf o t) = wordFor (opCode o) t := by
  cases o <;> cases t <;> rfl

theorem decode_encode (i : Instr) : decode (encode i) = .ok i := by
  obtain ⟨o, t, rfl⟩ | rfl := instr_cases i
  · rw [encode_instrOf, decode_wordFor]
  · exact decode_ccf

theorem encode_of_decode_eq_ok {w : Byte} {i : Instr} (h : decode w = .ok i) : encode i = w := by
  obtain ⟨r, hr⟩ | rfl | ⟨o, t, rfl⟩ := word_cases w
  · cases h.symm.trans (decode_of_isReservedAs hr)
  · cases h.symm.trans decode_ccf
    rfl
  · cases h.symm.trans (decode_wordFor o t)
    exact encode_instrOf o t

/-- Settles O12: each instruction's word decodes to it, and no other word does. -/
theorem decodeAndEncodeAgree : Obligations.DecodeAndEncodeAgree := by
  unfold Obligations.DecodeAndEncodeAgree
  intro w i
  constructor
  · exact encode_of_decode_eq_ok
  · rintro rfl
    exact decode_encode i

/-- The defined words, by the numbers of their fields (30_encoding R52). -/
theorem exists_decode_eq_ok_iff (w : Byte) :
    (∃ i, decode w = .ok i) ↔ (∃ op tgt : Nat, op ≤ 10 ∧ tgt ≤ 6 ∧ w.toNat = 16 * op + tgt) ∨ w = 0xB0 := by
  obtain ⟨r, hr⟩ | rfl | ⟨o, t, rfl⟩ := word_cases w
  · refine iff_of_false (fun ⟨i, hi⟩ => nomatch hi.symm.trans (decode_of_isReservedAs hr)) ?_
    rintro (⟨op, tgt, hop, htgt, hw⟩ | rfl)
    · cases r <;> (simp only [IsReservedAs] at hr; omega)
    · cases decode_ccf.symm.trans (decode_of_isReservedAs hr)
  · exact iff_of_true ⟨_, decode_ccf⟩ (.inr rfl)
  · exact iff_of_true ⟨_, decode_wordFor o t⟩ (.inl ⟨_, _, opCode_le o, targetCode_le t, toNat_wordFor o t⟩)

/-- Settles O13: the words by their fields, and their number by running the decoder on all 256. -/
theorem definedWordsAreThe78 : Obligations.DefinedWordsAreThe78 := by
  unfold Obligations.DefinedWordsAreThe78
  exact ⟨exists_decode_eq_ok_iff, decode_wordFor, decode_ccf, rfl⟩

/-- Settles O14: the words of each class by their fields, and their number by running the decoder on all 256. -/
theorem reservedWordsByClass : Obligations.ReservedWordsByClass := by
  unfold Obligations.ReservedWordsByClass
  exact ⟨(decode_eq_error_iff · .mustBeZeroBit), (decode_eq_error_iff · .operation), (decode_eq_error_iff · .target),
    (decode_eq_error_iff · .ccfTarget), rfl, rfl, rfl, rfl⟩

/-- Settles O15: each defined word is the word of its operation and target, each reserved one is in its class. -/
theorem tabledWordsDecode : Obligations.TabledWordsDecode := by
  unfold Obligations.TabledWordsDecode
  exact ⟨decode_wordFor .add .b, decode_wordFor .adc .l, decode_wordFor .addhl .b, decode_wordFor .and .l,
    decode_wordFor .or .h, decode_wordFor .xor .d, decode_wordFor .sub .a, decode_wordFor .sbc .e,
    decode_wordFor .cp .c, decode_wordFor .inc .h, decode_wordFor .dec .l, decode_ccf,
    decode_of_isReservedAs (r := .mustBeZeroBit) rfl, decode_of_isReservedAs (r := .target) ⟨rfl, by decide, rfl⟩,
    decode_of_isReservedAs (r := .operation) ⟨rfl, by decide⟩,
    decode_of_isReservedAs (r := .ccfTarget) ⟨by decide, by decide⟩⟩

end Sys2Proof.Proofs
end

