-- ==== Sys2Proof/Proofs/HostPort.lean ====
section
/-! PROOF. The flags codec, the register file and the host port over them (40_codec_regfile R60 to R71). -/

namespace Sys2Proof.Proofs

open Sys2Proof.Machine Sys2Proof.Claims Sys2Proof.Laws

/-- A register write leaves every other register (40_codec_regfile R65). -/
theorem setReg_keepsRegs (t : Target) (v : Byte) (s : State) : keepsRegs [t] s (setReg t v s) := fun u hu => by
  rw [getReg_setReg, if_neg (mt List.mem_singleton.mpr hu)]

/-- Settles O3: the read after the write, and the frame of the write. -/
theorem setThenGetRegister : Obligations.SetThenGetRegister := by
  unfold Obligations.SetThenGetRegister
  intro t v s
  have hread : getReg t (setReg t v s) = v := by rw [getReg_setReg, if_pos rfl]
  exact ⟨hread, setReg_keepsRegs t v s, setReg_f s t v, setReg_keepsRest t v s⟩

/-- Packing loses no flag (40_codec_regfile R62). -/
theorem decodeFlags_encodeFlags (f : Flags) : decodeFlags (encodeFlags f) = f := by
  apply flags_eq <;> exact getLsbD_encodeFlags f (by decide)

/-- The 16-bit variant adds eight high bits, all 0 (40_codec_regfile R63). -/
theorem toNat_encodeFlags16 (f : Flags) : (encodeFlags16 f).toNat = (encodeFlags f).toNat :=
  BitVec.toNat_setWidth_of_le (by decide)

/-- Settles O8: the packed number, and the codec's two directions by their bits. -/
theorem flagsCodecRoundTrips : Obligations.FlagsCodecRoundTrips := by
  unfold Obligations.FlagsCodecRoundTrips
  exact ⟨toNat_encodeFlags, fun _ => rfl, decodeFlags_encodeFlags, encodeFlags_decodeFlags, toNat_encodeFlags16⟩

/-- Settles O9: each view is shown as the concatenation of the two outputs it is made of. -/
theorem readOutputsShowTheState : Obligations.ReadOutputsShowTheState := by
  unfold Obligations.ReadOutputsShowTheState
  intro s o
  have haf : o.afO.toNat = 256 * o.aO.toNat + o.fO.toNat := by
    rw [show o.afO = o.aO ++ o.fO from getAF_eq_append s, toNat_append_bytes]
  obtain ⟨hbc, hde, hhl⟩ := pairViewsConcatenate s
  exact ⟨rfl, toNat_encodeFlags s.f, haf, hbc, hde, hhl, rfl⟩

/-- Settles O11: the three inputs choose the edge's arm, whatever the word, the value and the state are. -/
theorem hostSetWithStepIsRefused : Obligations.HostSetWithStepIsRefused := by
  unfold Obligations.HostSetWithStepIsRefused
  intro cfg p s hrst hstep hset
  rw [clockEdge, hrst, hstep, hset]

theorem lowByte_eq_ofNat (v : Pair) : lowByte v = BitVec.ofNat 8 v.toNat :=
  BitVec.eq_of_toNat_eq (toNat_lowByte v)

/-- The codes 0 to 6 of `hw_sel` are the target codes (40_codec_regfile R70). -/
theorem hostSet_of_targetCode {sel : BitVec 4} {t : Target} (hsel : sel.toNat = targetCode t) (v : Pair) (s : State) :
    hostSet sel v s = setReg t (lowByte v) s := by
  rw [hostSet, hsel]
  cases t <;> rfl

theorem hostSet_af (v : Pair) (s : State) : hostSet 8 v s = setAF v s := rfl
theorem hostSet_bc (v : Pair) (s : State) : hostSet 9 v s = setBC v s := rfl
theorem hostSet_de (v : Pair) (s : State) : hostSet 10 v s = setDE v s := rfl
theorem hostSet_hl (v : Pair) (s : State) : hostSet 11 v s = setHL v s := rfl

/-- The five codes of `hw_sel` that select nothing (40_codec_regfile R70). -/
theorem hostSet_of_unassigned {sel : BitVec 4} (hsel : sel = 7 ∨ 12 ≤ sel.toNat) (v : Pair) (s : State) :
    hostSet sel v s = s := by
  have hcode : sel ∈ [(7 : BitVec 4), 12, 13, 14, 15] := by
    revert sel
    decide
  simp only [List.mem_cons, List.not_mem_nil, or_false] at hcode
  obtain rfl | rfl | rfl | rfl | rfl := hcode <;> rfl

/-- A host set and the record of the outputs do not meet: their order is indifferent. -/
theorem showOutputs_hostSet (o : Outputs) (sel : BitVec 4) (v : Pair) (s : State) :
    showOutputs o (hostSet sel v s) = hostSet sel v (showOutputs o s) := by
  unfold hostSet
  split <;> rfl

/-- An edge with `hw_valid` alone performs the host set (40_codec_regfile R70). -/
theorem clockEdge_hostSet (cfg : Config) {p : Pins} (s : State) (hrst : p.rst = false) (hstep : p.instrValid = false)
    (hset : p.hwValid = true) :
    clockEdge cfg p s = .next (hostSet p.hwSel p.hwData (showOutputs Outputs.quiet s)) := by
  rw [clockEdge, hrst, hstep, hset, ← showOutputs_hostSet]

/-- Settles O10: the step is the host set on the state with the operation consumed, and `hw_sel` names which set it is. -/
theorem hostWritePortSets : Obligations.HostWritePortSets := by
  unfold Obligations.HostWritePortSets
  intro s p rest hnext hrst hstep hset base low
  have hrun : step s = .next (hostSet p.hwSel p.hwData base) :=
    (step_cons hnext).trans (clockEdge_hostSet hardware _ hrst hstep hset)
  rw [hrun]
  refine ⟨fun t ht => ?_, fun h => ?_, fun h => ?_, fun h => ?_, fun h => ?_, fun h => ?_⟩
  · rw [hostSet_of_targetCode ht, lowByte_eq_ofNat]
  · rw [h, hostSet_af]
  · rw [h, hostSet_bc]
  · rw [h, hostSet_de]
  · rw [h, hostSet_hl]
  · rw [hostSet_of_unassigned h]

end Sys2Proof.Proofs
end

