-- ==== Sys2Proof/Proofs/AluAdd.lean ====
section
/-! PROOF. The additions ADD, ADC, ADDHL (41_alu_add R83 to R85), what the incoming carry does to ADC and SBC (R84, 43_alu_sub
R96), and what an instruction leaves alone (41_alu_add R86). -/

namespace Sys2Proof.Proofs

open Sys2Proof.Machine Sys2Proof.Claims Sys2Proof.Laws

/-! ## The registers a write-back leaves alone -/

theorem setFlags_keepsRegs (s : State) (f : Flags) : keepsRegs [] s (setFlags f s) := fun t _ => getReg_setFlags s t f

theorem writeBack_keepsRegs (s : State) (r : Target) (v : Byte) (f : Flags) : keepsRegs [r] s (writeBack r v f s) :=
  fun t ht => (getReg_setFlags _ t f).trans (setReg_keepsRegs r v s t ht)

theorem writeBackHL_keepsRegs (s : State) (w : Pair) (f : Flags) : keepsRegs [.h, .l] s (writeBackHL w f s) := by
  obtain ⟨-, -, -, hother, -, -⟩ := split_write_reads_back (hi := .h) (lo := .l) (by decide) w s
  exact fun t ht => (getReg_setFlags _ t f).trans (hother t ht)

theorem getHL_writeBackHL (s : State) (w : Pair) (f : Flags) : getHL (writeBackHL w f s) = w := highByte_append_lowByte w

/-! ## The flag computations in numbers (41_alu_add R82, R84) -/

theorem wrap8_eq_zero_iff (n : Nat) : wrap8 n = 0 ↔ n % 256 = 0 := by rw [byte_eq_zero, wrap8_toNat]

theorem wrap16_eq_zero_iff (n : Nat) : wrap16 n = 0 ↔ n % 65536 = 0 := by rw [pair_eq_zero, wrap16_toNat]

theorem carryIn_eq_carryNat (s : State) : carryIn s = carryNat s := by
  unfold carryIn carryNat
  cases s.f.c <;> rfl

theorem hcAdd_eq_true_iff (x y : Byte) : hcAdd x y = true ↔ 15 < x.toNat % 16 + y.toNat % 16 := by
  rw [hcAdd, decide_eq_true_iff, lowNibble_eq, lowNibble_eq]

theorem hcAdc_eq_true_iff (hcCin : Bool) (x y : Byte) (cin : Nat) :
    hcAdc hcCin x y cin = true ↔ 15 < x.toNat % 16 + y.toNat % 16 + (if hcCin = true then cin else 0) := by
  cases hcCin with
  | false => exact hcAdd_eq_true_iff x y
  | true => exact decide_eq_true_iff.trans (by rw [lowNibble_eq, lowNibble_eq]; rfl)

theorem hcAdc_zero (hcCin : Bool) (x y : Byte) : hcAdc hcCin x y 0 = hcAdd x y := by cases hcCin <;> rfl

theorem hcSbc_zero (hcCin : Bool) (x y : Byte) : hcSbc hcCin x y 0 = hcSub x y := by cases hcCin <;> rfl

/-! ## ADD, ADC and ADDHL -/

/-- What an 8-bit addition of the sum `sum` leaves, whichever nibbles its half-carry adds up (41_alu_add R83, R84). -/
theorem writeBack_sum_leaves {sum nibbles : Nat} {h : Bool} (hh : h = true ↔ 15 < nibbles) (s : State) :
    let s' := writeBack .a (wrap8 sum) ⟨decide (wrap8 sum = 0), false, h, decide (sum > 255)⟩ s
    regNat .a s' = sum % 256 ∧ (s'.f.z = true ↔ sum % 256 = 0) ∧ s'.f.n = false ∧ (s'.f.h = true ↔ 15 < nibbles) ∧
      (s'.f.c = true ↔ 255 < sum) ∧ keepsRegs [.a] s s' ∧ keepsRest s s' :=
  ⟨wrap8_toNat sum, decide_eq_true_iff.trans (wrap8_eq_zero_iff sum), rfl, hh, decide_eq_true_iff,
    writeBack_keepsRegs _ _ _ _, writeBack_keepsRest ..⟩

/-- Settles O19: the shared law of the 8-bit additions, with ADD's nibbles. -/
theorem addResult : Obligations.AddResult := by
  unfold Obligations.AddResult
  exact fun t s => ⟨decode_wordFor .add t, _, exec_add t s, writeBack_sum_leaves (hcAdd_eq_true_iff _ _) s⟩

/-- ADC under either setting of `HC_CIN` (41_alu_add R84). -/
theorem runAdc_leaves (cfg : Config) (t : Target) (s : State) :
    ∃ s', runAdc cfg t s = .next s' ∧ AdcLeaves cfg.hcCin t s s' := by
  refine ⟨_, rfl, ?_⟩
  rw [carryIn_eq_carryNat]
  exact writeBack_sum_leaves (hcAdc_eq_true_iff cfg.hcCin _ _ _) s

/-- Settles O20: `exec` runs ADC at this hardware's `HC_CIN`, which is 0. -/
theorem adcResult : Obligations.AdcResult := by
  unfold Obligations.AdcResult
  refine ⟨fun t s => ⟨decode_wordFor .adc t, ?_⟩, runAdc_leaves⟩
  rw [exec_adc]
  exact runAdc_leaves hardware t s

/-- Settles O21: HL reads back as the 16-bit sum; the half-carry is ADD's (90_conflicts C10). -/
theorem addhlResult : Obligations.AddhlResult := by
  unfold Obligations.AddhlResult
  intro t s
  refine ⟨decode_wordFor .addhl t, _, exec_addhl t s, ?_, decide_eq_true_iff.trans (wrap16_eq_zero_iff _), rfl,
    hcAdd_eq_true_iff _ _, decide_eq_true_iff, writeBackHL_keepsRegs _ _ _, writeBackHL_keepsRest ..⟩
  rw [getHL_writeBackHL, wrap16_toNat]
  rfl

/-! ## The incoming carry -/

theorem carryIn_of_not_carry {s : State} (hc : s.f.c = false) : carryIn s = 0 := congrArg bit hc

theorem carryIn_of_carry {s : State} (hc : s.f.c = true) : carryIn s = 1 := congrArg bit hc

theorem runAdc_of_not_carry (cfg : Config) (t : Target) {s : State} (hc : s.f.c = false) : runAdc cfg t s = runAdd t s := by
  simp only [runAdc, runAdd, carryIn_of_not_carry hc, hcAdc_zero, Nat.add_zero]

theorem runSbc_of_not_carry (cfg : Config) (t : Target) {s : State} (hc : s.f.c = false) : runSbc cfg t s = runSub t s := by
  simp only [runSbc, runSub, subtract, carryIn_of_not_carry hc, hcSbc_zero, Int.ofNat_zero, Int.sub_zero]

/-- Settles O33: the two equations without carry, for every configuration and so for this hardware's. -/
theorem noCarryMakesAdcAddAndSbcSub : Obligations.NoCarryMakesAdcAddAndSbcSub := by
  unfold Obligations.NoCarryMakesAdcAddAndSbcSub
  intro cfg t s hc
  rw [exec_add, exec_sub, exec_adc, exec_sbc]
  exact ⟨runAdc_of_not_carry cfg t hc, runSbc_of_not_carry cfg t hc, runAdc_of_not_carry hardware t hc,
    runSbc_of_not_carry hardware t hc⟩

/-- A whole turn of 256, up or down, wraps back to the byte. -/
theorem wrap8_eq_of_emod_eq {x : Int} {b : Byte} (h : x % 256 = b.toNat) : wrap8 x = b :=
  BitVec.eq_of_toNat_eq (Int.ofNat.inj ((wrap8_toInt x).trans h))

/-- Settles O34: the one computation adds 256 to A, or takes 256 from it. -/
theorem carryInAndOutShareOneComputation : Obligations.CarryInAndOutShareOneComputation := by
  unfold Obligations.CarryInAndOutShareOneComputation
  intro t s hv hc
  have hoperand : (operand t s).toNat = 255 := congrArg BitVec.toNat hv
  have hcin := carryIn_of_carry hc
  have ha : (accumulator s).toNat < 256 := (accumulator s).isLt
  constructor
  · refine ⟨_, exec_adc t s, wrap8_eq_of_emod_eq (b := accumulator s) ?_, decide_eq_true ?_⟩ <;> omega
  · refine ⟨_, exec_sbc t s, wrap8_eq_of_emod_eq (b := accumulator s) ?_, decide_eq_true ?_⟩ <;> omega

/-- The carry reaches the nibble sum under one setting only, and tips it exactly from 15 to 16 (92_eei_decisions D7). -/
theorem hcAdc_settings_ne_iff (x y : Byte) (p : Bool) :
    hcAdc false x y (bit p) ≠ hcAdc true x y (bit p) ↔ x.toNat % 16 + y.toNat % 16 = 15 ∧ p = true := by
  rw [Ne, Bool.eq_iff_iff, hcAdc_eq_true_iff, hcAdc_eq_true_iff]
  cases p with
  | false => simp
  | true =>
    simp only [if_true, Bool.false_eq_true, if_false, bit_true, and_true]
    omega

/-- Settles O35: all but the half-carry is computed without looking at `HC_CIN`. -/
theorem adcSettingsDifferOnlyInHalfCarry : Obligations.AdcSettingsDifferOnlyInHalfCarry := by
  unfold Obligations.AdcSettingsDifferOnlyInHalfCarry
  exact fun t s => ⟨_, _, rfl, rfl, rfl, hcAdc_settings_ne_iff (accumulator s) (operand t s) s.f.c⟩

/-! ## Every instruction's frame -/

/-- The destinations of 45_dispatcher R111 cover each operation's write-back. -/
theorem exec_instrOf_keepsRegs (o : Op) (t : Target) (s : State) :
    ∃ s', exec (instrOf o t) s = .next s' ∧ keepsRegs (destinations o t) s s' := by
  cases o with
  | add => exact ⟨_, exec_add t s, writeBack_keepsRegs _ _ _ _⟩
  | adc => exact ⟨_, exec_adc t s, writeBack_keepsRegs _ _ _ _⟩
  | addhl => exact ⟨_, exec_addhl t s, writeBackHL_keepsRegs _ _ _⟩
  | and => exact ⟨_, exec_and t s, writeBack_keepsRegs _ _ _ _⟩
  | or => exact ⟨_, exec_or t s, writeBack_keepsRegs _ _ _ _⟩
  | xor => exact ⟨_, exec_xor t s, writeBack_keepsRegs _ _ _ _⟩
  | sub => exact ⟨_, exec_sub t s, writeBack_keepsRegs _ _ _ _⟩
  | sbc => exact ⟨_, exec_sbc t s, writeBack_keepsRegs _ _ _ _⟩
  | cp => exact ⟨_, exec_cp t s, setFlags_keepsRegs _ _⟩
  | inc => exact ⟨_, exec_inc t s, writeBack_keepsRegs _ _ _ _⟩
  | dec => exact ⟨_, exec_dec t s, writeBack_keepsRegs _ _ _ _⟩

/-- INC and DEC pass carry on (90_conflicts C4). -/
theorem exec_inc_dec_keeps_carry {o : Op} {t : Target} {s s' : State} (ho : o = .inc ∨ o = .dec)
    (h : exec (instrOf o t) s = .next s') : s'.f.c = s.f.c := by
  obtain rfl | rfl := ho
  · obtain rfl := Host.Outcome.next.inj ((exec_inc t s).symm.trans h)
    rfl
  · obtain rfl := Host.Outcome.next.inj ((exec_dec t s).symm.trans h)
    rfl

/-- Settles O37: the registers by `exec_instrOf_keepsRegs`, all else by `exec_keepsRest`, and CCF by its one arm. -/
theorem instructionsChangeOnlyTheirDestinations : Obligations.InstructionsChangeOnlyTheirDestinations := by
  unfold Obligations.InstructionsChangeOnlyTheirDestinations
  refine ⟨fun o t s => ?_, fun s => ?_, instr_cases⟩
  · obtain ⟨s', hs', hregs⟩ := exec_instrOf_keepsRegs o t s
    exact ⟨s', hs', hregs, exec_keepsRest hs', fun ho => exec_inc_dec_keeps_carry ho hs'⟩
  · exact ⟨_, exec_ccf s, setFlags_keepsRegs s _, setFlags_keepsRest s _, rfl, rfl, rfl⟩

end Sys2Proof.Proofs
end

