-- ==== Sys2Proof/Proofs/AluLogic.lean ====
section
/-! PROOF. The bitwise operations AND, OR, XOR (42_alu_logic R90 to R92). -/

namespace Sys2Proof.Proofs

open Sys2Proof.Machine Sys2Proof.Claims Sys2Proof.Laws

/-- What a bitwise operation leaves when its result `v` has the bits `bits`: the three differ in those bits and in the
constant `h` their half-carry is set to (42_alu_logic R90 to R92). -/
theorem writeBack_bitwise_leaves {v : Byte} {bits : Nat → Bool} (hbits : ∀ k, v.getLsbD k = bits k) (h : Bool) (s : State) :
    let s' := writeBack .a v ⟨decide (v = 0), false, h, false⟩ s
    (∀ k, (getReg .a s').getLsbD k = bits k) ∧ (s'.f.z = true ↔ getReg .a s' = 0) ∧ s'.f.n = false ∧ s'.f.h = h ∧
      s'.f.c = false ∧ keepsRegs [.a] s s' ∧ keepsRest s s' :=
  ⟨hbits, decide_eq_true_iff, rfl, rfl, rfl, writeBack_keepsRegs _ _ _ _, writeBack_keepsRest ..⟩

/-- Settles O22: the shared law of the bitwise operations, with the half-carry set. -/
theorem andResult : Obligations.AndResult := by
  unfold Obligations.AndResult
  exact fun t s =>
    ⟨decode_wordFor .and t, _, exec_and t s, writeBack_bitwise_leaves (fun _ => BitVec.getLsbD_and) true s⟩

/-- Settles O23: the shared law of the bitwise operations, with the half-carry cleared. -/
theorem orResult : Obligations.OrResult := by
  unfold Obligations.OrResult
  exact fun t s =>
    ⟨decode_wordFor .or t, _, exec_or t s, writeBack_bitwise_leaves (fun _ => BitVec.getLsbD_or) false s⟩

/-- Settles O24: the shared law of the bitwise operations; an exclusive or is 0 exactly for equal operands. -/
theorem xorResult : Obligations.XorResult := by
  unfold Obligations.XorResult
  intro t s
  obtain ⟨hbits, hz, hflagsAndFrame⟩ := writeBack_bitwise_leaves
    (v := accumulator s ^^^ operand t s) (fun _ => BitVec.getLsbD_xor) false s
  have hequal : accumulator s ^^^ operand t s = 0 ↔ getReg .a s = getReg t s := BitVec.xor_eq_zero_iff
  exact ⟨decode_wordFor .xor t, _, exec_xor t s, hbits, hz.trans hequal, hz, hflagsAndFrame⟩

end Sys2Proof.Proofs
end

