-- ==== Sys2Proof/Proofs/AluSub.lean ====
section
/-! PROOF. The subtractions SUB, SBC and the compare CP (43_alu_sub R95 to R97). -/

namespace Sys2Proof.Proofs

open Sys2Proof.Machine Sys2Proof.Claims Sys2Proof.Laws

/-! ## The flag computations in numbers (41_alu_add R82, 43_alu_sub R96) -/

theorem wrap8_int_eq_zero_iff (x : Int) : wrap8 x = 0 ↔ x % 256 = 0 := by
  rw [byte_eq_zero, ← wrap8_toInt, Int.natCast_eq_zero]

theorem hcSub_eq_true_iff (x y : Byte) : hcSub x y = true ↔ x.toNat % 16 < y.toNat % 16 := by
  rw [hcSub, decide_eq_true_iff, lowNibble_eq, lowNibble_eq]

theorem hcSbc_eq_true_iff (hcCin : Bool) (x y : Byte) (cin : Nat) :
    hcSbc hcCin x y cin = true ↔ x.toNat % 16 < y.toNat % 16 + (if hcCin = true then cin else 0) := by
  cases hcCin with
  | false => exact hcSub_eq_true_iff x y
  | true => exact decide_eq_true_iff.trans (by rw [lowNibble_eq, lowNibble_eq]; rfl)

/-- Two bytes differ by less than a whole turn of 256, so the wrapped difference is 0 for equal bytes only. -/
theorem wrap8_sub_eq_zero_iff (x y : Byte) : wrap8 ((x.toNat : Int) - y.toNat) = 0 ↔ x.toNat = y.toNat := by
  have hx : x.toNat < 256 := x.isLt
  have hy : y.toNat < 256 := y.isLt
  rw [wrap8_int_eq_zero_iff]
  omega

/-! ## SUB and CP -/

/-- The four flags that SUB and CP share (43_alu_sub R95, R97). -/
theorem subtract_flags (x y : Byte) :
    let f := (subtract x y).2
    (f.z = true ↔ x.toNat = y.toNat) ∧ f.n = true ∧ (f.h = true ↔ x.toNat % 16 < y.toNat % 16) ∧
      (f.c = true ↔ x.toNat < y.toNat) := by
  have hborrow : (x.toNat : Int) - y.toNat < 0 ↔ x.toNat < y.toNat := by omega
  exact ⟨decide_eq_true_iff.trans (wrap8_sub_eq_zero_iff x y), rfl, hcSub_eq_true_iff x y,
    decide_eq_true_iff.trans hborrow⟩

/-- Settles O25: the flags of `subtract` and the write-back to A. -/
theorem subResult : Obligations.SubResult := by
  unfold Obligations.SubResult
  intro t s
  obtain ⟨hz, hn, hh, hc⟩ := subtract_flags (accumulator s) (operand t s)
  exact ⟨decode_wordFor .sub t, _, exec_sub t s, wrap8_toInt _, hz, hn, hh, hc,
    writeBack_keepsRegs _ _ _ _, writeBack_keepsRest ..⟩

/-- Settles O27: CP writes the flags of the `subtract` that SUB writes back, and nothing else. -/
theorem cpResult : Obligations.CpResult := by
  unfold Obligations.CpResult
  intro t s
  obtain ⟨hz, hn, hh, hc⟩ := subtract_flags (accumulator s) (operand t s)
  exact ⟨decode_wordFor .cp t, _, _, exec_cp t s, exec_sub t s, rfl, hz, hn, hh, hc,
    setFlags_keepsRegs s _, setFlags_keepsRest s _⟩

/-- A byte less itself is 0, with neither a half-borrow nor a borrow. -/
theorem subtract_self (x : Byte) : subtract x x = (0, ⟨true, true, false, false⟩) := by
  have hdiff : (x.toNat : Int) - x.toNat = 0 := Int.sub_self _
  have hhalf : hcSub x x = false := decide_eq_false (Nat.lt_irrefl _)
  rw [subtract, hdiff, hhalf]
  rfl

/-- Settles O31: SUB of the value A holds is `subtract_self`. -/
theorem subOfEqualOperands : Obligations.SubOfEqualOperands := by
  unfold Obligations.SubOfEqualOperands
  intro t s hequal
  have hoperand : operand t s = accumulator s := hequal
  have hnext : exec (instrOf .sub t) s = .next (writeBack .a 0 ⟨true, true, false, false⟩ s) := by
    simp only [exec_sub, runSub, hoperand, subtract_self]
  have hpacked : encodeFlags ⟨true, true, false, false⟩ = 0xC0 := by decide
  exact ⟨_, hnext, rfl, hpacked⟩

/-! ## SBC -/

/-- SBC under either setting of `HC_CIN` (43_alu_sub R96). -/
theorem runSbc_leaves (cfg : Config) (t : Target) (s : State) :
    ∃ s', runSbc cfg t s = .next s' ∧ SbcLeaves cfg.hcCin t s s' := by
  refine ⟨_, rfl, ?_⟩
  rw [carryIn_eq_carryNat]
  exact ⟨wrap8_toInt _, decide_eq_true_iff.trans (wrap8_int_eq_zero_iff _), rfl, hcSbc_eq_true_iff cfg.hcCin _ _ _,
    decide_eq_true_iff, writeBack_keepsRegs _ _ _ _, writeBack_keepsRest ..⟩

/-- Settles O26: `exec` runs SBC at this hardware's `HC_CIN`, which is 0. -/
theorem sbcResult : Obligations.SbcResult := by
  unfold Obligations.SbcResult
  refine ⟨fun t s => ⟨decode_wordFor .sbc t, ?_⟩, runSbc_leaves⟩
  rw [exec_sbc]
  exact runSbc_leaves hardware t s

/-- The carry reaches the operand's nibble under one setting only, and tips the borrow exactly at equal nibbles
(92_eei_decisions D7). -/
theorem hcSbc_settings_ne_iff (x y : Byte) (p : Bool) :
    hcSbc false x y (bit p) ≠ hcSbc true x y (bit p) ↔ x.toNat % 16 = y.toNat % 16 ∧ p = true := by
  rw [Ne, Bool.eq_iff_iff, hcSbc_eq_true_iff, hcSbc_eq_true_iff]
  cases p with
  | false => simp
  | true =>
    simp only [if_true, Bool.false_eq_true, if_false, bit_true, and_true]
    omega

/-- Settles O36: all but the half-carry is computed without looking at `HC_CIN`. -/
theorem sbcSettingsDifferOnlyInHalfCarry : Obligations.SbcSettingsDifferOnlyInHalfCarry := by
  unfold Obligations.SbcSettingsDifferOnlyInHalfCarry
  exact fun t s => ⟨_, _, rfl, rfl, rfl, hcSbc_settings_ne_iff (accumulator s) (operand t s) s.f.c⟩

end Sys2Proof.Proofs
end

