-- ==== Sys2Proof/Proofs/IncDecCcf.lean ====
section
/-! PROOF. Increment, decrement and carry complement: INC, DEC, CCF (44_alu_incdec_ccf R100 to R102). -/

namespace Sys2Proof.Proofs

open Sys2Proof.Machine Sys2Proof.Claims Sys2Proof.Laws

/-! ## INC and DEC -/

theorem getReg_writeBack_same (s : State) (r : Target) (v : Byte) (f : Flags) : getReg r (writeBack r v f s) = v := by
  rw [getReg_writeBack, if_pos rfl]

/-- The one byte whose successor wraps to 0. -/
theorem wrap8_add_one_eq_zero_iff (x : Byte) : wrap8 ((x.toNat : Int) + 1) = 0 ↔ x.toNat = 255 := by
  have hx : x.toNat < 256 := x.isLt
  rw [wrap8_int_eq_zero_iff]
  omega

/-- A nibble carries into the next one, with 1 added, from 15 only. -/
theorem hcAdd_one_eq_true_iff (x : Byte) : hcAdd x 1 = true ↔ x.toNat % 16 = 15 := by
  have hone : (1 : Byte).toNat = 1 := rfl
  rw [hcAdd_eq_true_iff, hone]
  omega

/-- A nibble borrows from the next one, with 1 taken, at 0 only. -/
theorem hcSub_one_eq_true_iff (x : Byte) : hcSub x 1 = true ↔ x.toNat % 16 = 0 := by
  have hone : (1 : Byte).toNat = 1 := rfl
  rw [hcSub_eq_true_iff, hone]
  omega

/-- Settles O28: INC's write-back, its two computed flags in numbers. -/
theorem incResult : Obligations.IncResult := by
  unfold Obligations.IncResult
  intro t s
  refine ⟨decode_wordFor .inc t, _, exec_inc t s, ?_, decide_eq_true_iff.trans (wrap8_add_one_eq_zero_iff _), rfl,
    hcAdd_one_eq_true_iff _, rfl, writeBack_keepsRegs _ _ _ _, writeBack_keepsRest ..⟩
  rw [regNat, getReg_writeBack_same]
  exact wrap8_toNat (regNat t s + 1)

/-- Settles O29: DEC's write-back, its two computed flags in numbers; the wrapped difference from 1 is 0 at 1 only. -/
theorem decResult : Obligations.DecResult := by
  unfold Obligations.DecResult
  intro t s
  refine ⟨decode_wordFor .dec t, _, exec_dec t s, ?_, decide_eq_true_iff.trans (wrap8_sub_eq_zero_iff _ 1), rfl,
    hcSub_one_eq_true_iff _, rfl, writeBack_keepsRegs _ _ _ _, writeBack_keepsRest ..⟩
  rw [regNat, getReg_writeBack_same]
  exact wrap8_toInt _

/-- Settles O32: DEC's result from the state that INC leaves; the target's residue comes back, and no other register moved. -/
theorem incThenDecRestores : Obligations.IncThenDecRestores := by
  unfold Obligations.IncThenDecRestores
  intro t s
  obtain ⟨-, s1, hinc, hvalue1, -, -, -, hc1, hother1, -⟩ := incResult t s
  obtain ⟨-, s2, hdec, hvalue2, hz2, hn2, hh2, hc2, hother2, -⟩ := decResult t s1
  have hlt : regNat t s < 256 := (getReg t s).isLt
  have hlt2 : regNat t s2 < 256 := (getReg t s2).isLt
  refine ⟨s1, s2, hinc, hdec, fun u => ?_, hc2.trans hc1, hn2, hz2.trans ?_, hh2.trans ?_⟩
  · by_cases hu : u = t
    · have hrestored : regNat t s2 = regNat t s := by omega
      exact hu ▸ BitVec.eq_of_toNat_eq hrestored
    · have hout : u ∉ [t] := mt List.mem_singleton.mp hu
      exact (hother2 u hout).trans (hother1 u hout)
  · have hzero : getReg t s = 0 ↔ regNat t s = 0 := byte_eq_zero _
    rw [hzero]
    omega
  · omega

/-! ## CCF -/

/-- CCF undoes itself (44_alu_incdec_ccf R102). -/
theorem exec_ccf_setFlags_not (s : State) : exec .ccf (setFlags { s.f with c := !s.f.c } s) = .next s := by
  rw [exec_ccf, setFlags_f, Bool.not_not]
  rfl

/-- Settles O30: CCF's one arm, and that it undoes itself. -/
theorem ccfResult : Obligations.CcfResult := by
  unfold Obligations.CcfResult
  intro s
  have hinverted : (!s.f.c) = true ↔ s.f.c = false := Bool.not_eq_eq_eq_not
  exact ⟨decode_ccf, _, exec_ccf s, hinverted, rfl, rfl, rfl, setFlags_keepsRegs s _, setFlags_keepsRest s _,
    exec_ccf_setFlags_not s⟩

end Sys2Proof.Proofs
end

