-- ==== Sys2Proof/Proofs/Dispatcher.lean ====
section
/-! PROOF. The dispatcher and the instruction port: the step by a defined and by a reserved word, the idle cycle, and the queue
(45_dispatcher R110 to R113, R116). -/

namespace Sys2Proof.Proofs

open Sys2Proof.Machine Sys2Proof.Claims Sys2Proof.Laws

/-! ## Defined words: the check of the fields against the decoder -/

theorem wordDefined_iff_fields (w : Byte) :
    wordDefined w = true ↔ w.toNat / 8 % 2 = 0 ∧ w.toNat / 16 ≤ 11 ∧ (w.toNat / 16 = 11 ∨ w.toNat % 8 ≠ 7) ∧
      (w.toNat / 16 ≠ 11 ∨ w.toNat % 8 = 0) := by
  have hz : bitThreeClear w = true ↔ w.toNat / 8 % 2 = 0 := by
    rw [bitThreeClear, ← zField, Bool.not_eq_true', ← Bool.not_eq_true, zField_eq_true_iff, Nat.mod_two_not_eq_one]
  simp only [wordDefined, opAssigned, targetNamed, ccfTargetZero, Bool.and_eq_true, Bool.or_eq_true, decide_eq_true_iff,
    hz, and_assoc]

theorem wordDefined_of_decode_ok {w : Byte} {i : Instr} (h : decode w = .ok i) : wordDefined w = true := by
  obtain ⟨op, tgt, hop, htgt, hw⟩ | rfl := (exists_decode_eq_ok_iff w).1 ⟨i, h⟩
  · rw [wordDefined_iff_fields]
    omega
  · rfl

theorem wordDefined_of_decode_error {w : Byte} {r : Reserved} (h : decode w = .error r) : wordDefined w = false := by
  have hclass := (decode_eq_error_iff w r).1 h
  rw [← Bool.not_eq_true, wordDefined_iff_fields]
  cases r <;> (simp only [IsReservedAs] at hclass; omega)

/-! ## The step by a word -/

@[simp] theorem quiet_unimpl : Outputs.quiet.unimpl = false := rfl

/-- Every instruction completes (45_dispatcher R110). -/
theorem exec_answers_next (i : Instr) (s : State) : ∃ s', exec i s = .next s' := by
  obtain ⟨o, t, rfl⟩ | rfl := instr_cases i
  · obtain ⟨s', hs', -⟩ := exec_instrOf_keepsRegs o t s
    exact ⟨s', hs'⟩
  · exact ⟨_, exec_ccf s⟩

theorem executeWord_of_decode_ok {w : Byte} {i : Instr} (h : decode w = .ok i) (s : State) :
    executeWord w s = exec i (showOutputs Outputs.quiet s) := by rw [executeWord, h]

theorem executeWord_of_decode_error {w : Byte} {r : Reserved} (h : decode w = .error r) (s : State) :
    executeWord w s = .next (unimplemented s) := by rw [executeWord, h]

theorem executeWord_answers_next (w : Byte) (s : State) : ∃ s', executeWord w s = .next s' := by
  obtain ⟨i, -, he⟩ | ⟨r, -, he⟩ := executeWord_cases w s
  · exact he ▸ exec_answers_next i _
  · exact ⟨_, he⟩

/-- A step by a word flags the reserved words and no other (45_dispatcher R112). -/
theorem unimpl_of_executeWord {w : Byte} {s s' : State} (h : executeWord w s = .next s') :
    s'.out.unimpl = true ↔ wordDefined w = false := by
  obtain ⟨i, hw, he⟩ | ⟨r, hw, he⟩ := executeWord_cases w s
  · obtain ⟨-, -, -, -, hout⟩ := exec_keepsRest (he.symm.trans h)
    simp [hout, wordDefined_of_decode_ok hw]
  · obtain rfl := Host.Outcome.next.inj (he.symm.trans h)
    exact iff_of_true rfl (wordDefined_of_decode_error hw)

/-- Settles O18: a next state by `executeWord_answers_next`, its frame, and its flag. -/
theorem executeIsTotal : Obligations.ExecuteIsTotal := by
  unfold Obligations.ExecuteIsTotal
  intro w s
  obtain ⟨s', hs'⟩ := executeWord_answers_next w s
  obtain ⟨hpc, hmem, hpending⟩ := executeWord_keeps hs'
  exact ⟨s', hs', hpc, hmem, hpending, unimpl_of_executeWord hs'⟩

/-! ## The edge and the queue -/

/-- An edge with `instr_valid` alone is the step by its word (45_dispatcher R113). -/
theorem step_of_execute {s : State} {p : Pins} {rest : List DriverOp} (hnext : nextEdge s p rest) (hrst : p.rst = false)
    (hstep : p.instrValid = true) (hset : p.hwValid = false) :
    step s = executeWord p.instr { s with pending := rest } := by
  rw [step_cons hnext, runDriverOp, clockEdge, hrst, hstep, hset]

/-- Settles O16: the step by the word, and the instruction the word decodes to. -/
theorem stepRunsTheDecodedInstruction : Obligations.StepRunsTheDecodedInstruction := by
  unfold Obligations.StepRunsTheDecodedInstruction
  intro s p rest i hnext hrst hstep hset hdecode
  rw [step_of_execute hnext hrst hstep hset, executeWord_of_decode_ok hdecode]
  rfl

/-- Settles O49: an edge with no request, and the idle cycle of an empty queue. -/
theorem idleCycleHoldsTheState : Obligations.IdleCycleHoldsTheState := by
  unfold Obligations.IdleCycleHoldsTheState
  refine ⟨fun s p rest hnext hrst hstep hset => ?_, fun s => step_nil⟩
  rw [step_cons hnext, runDriverOp, clockEdge, hrst, hstep, hset]
  rfl

/-- Settles O44: a reset edge leaves what follows it in the queue, and every other step takes one operation off. -/
theorem eachDriverOperationIsConsumedOnce : Obligations.EachDriverOperationIsConsumedOnce := by
  unfold Obligations.EachDriverOperationIsConsumedOnce
  intro s s' h
  obtain ⟨p, rest, hnext, -, rfl⟩ | ⟨-, -, hpending⟩ := step_reset_or_keeps h
  · exact (congrArg List.tail hnext).symm
  · exact hpending

/-- Of all edges only the step by a reserved word, not under reset, flags (45_dispatcher R113). -/
theorem unimpl_of_clockEdge {cfg : Config} {p : Pins} {s s' : State} (h : clockEdge cfg p s = .next s') :
    s'.out.unimpl = true ↔ p.rst = false ∧ p.instrValid = true ∧ wordDefined p.instr = false := by
  obtain ⟨hrst, he⟩ | ⟨-, -, -, he⟩ | ⟨hrst, hstep, -, he⟩ | ⟨-, hstep, -, he⟩ | ⟨-, hstep, -, he⟩ :=
    clockEdge_cases cfg p s
  · obtain rfl := Host.Outcome.next.inj (he.symm.trans h)
    simp [hrst]
  · cases he.symm.trans h
  · simp [hrst, hstep, unimpl_of_executeWord (he.symm.trans h)]
  · obtain rfl := Host.Outcome.next.inj (he.symm.trans h)
    simp [hstep]
  · obtain rfl := Host.Outcome.next.inj (he.symm.trans h)
    simp [hstep]

/-- Settles O45: an empty queue and a read flag nothing, and an edge flags by `unimpl_of_clockEdge`. -/
theorem unimplShowsExactlyReservedWords : Obligations.UnimplShowsExactlyReservedWords := by
  unfold Obligations.UnimplShowsExactlyReservedWords
  intro s s' h
  cases hq : s.pending with
  | nil =>
    obtain rfl := Host.Outcome.next.inj ((step_nil hq).symm.trans h)
    simp [nextEdge, hq]
  | cons op rest =>
    have hrun := (step_cons hq).symm.trans h
    cases op with
    | clock p => simp [nextEdge, hq, unimpl_of_clockEdge hrun]
    | readByte addr =>
      obtain ⟨-, he⟩ | ⟨-, he⟩ := hostRead_cases hardware addr { s with pending := rest }
      · obtain rfl := Host.Outcome.next.inj (he.symm.trans hrun)
        simp [nextEdge, hq]
      · cases he.symm.trans hrun

/-! ## What was shown before is not read -/

theorem executeWord_showOutputs (w : Byte) (o : Outputs) (s : State) :
    executeWord w (showOutputs o s) = executeWord w s := by
  unfold executeWord
  cases decode w <;> rfl

theorem clockEdge_showOutputs (cfg : Config) (p : Pins) (o : Outputs) (s : State) :
    clockEdge cfg p (showOutputs o s) = clockEdge cfg p s := by
  unfold clockEdge
  split
  · rfl
  · rfl
  · exact executeWord_showOutputs p.instr o s
  · rw [← showOutputs_hostSet]
    rfl
  · rfl

theorem runDriverOp_showOutputs (cfg : Config) (op : DriverOp) (o : Outputs) (s : State) :
    runDriverOp cfg op (showOutputs o s) = runDriverOp cfg op s := by
  cases op with
  | clock p => exact clockEdge_showOutputs cfg p o s
  | readByte addr =>
    simp only [runDriverOp, hostRead, readByte_congr (showOutputs_mem s o)]
    cases readByte cfg addr s <;> rfl

/-- Settles O17: the step by the word, reserved or defined, and `runDriverOp_showOutputs` for the operation taken. -/
theorem reservedWordIsFlaggedNoOp : Obligations.ReservedWordIsFlaggedNoOp := by
  unfold Obligations.ReservedWordIsFlaggedNoOp
  refine ⟨fun s w rest hnext => ?_, fun s o =>
    runDriverOp_showOutputs hardware (nextDriverOp s) o (consumeDriverOp s)⟩
  rw [show step s = executeWord w { s with pending := rest } from step_of_execute hnext rfl rfl rfl]
  refine ⟨fun ⟨r, hw⟩ => executeWord_of_decode_error hw _, fun ⟨i, hw⟩ => ?_⟩
  obtain ⟨s', hs'⟩ := executeWord_answers_next w { s with pending := rest }
  refine ⟨s', hs', ?_⟩
  rw [← Bool.not_eq_true, unimpl_of_executeWord hs', wordDefined_of_decode_ok hw]
  decide

end Sys2Proof.Proofs
end

