-- ==== Sys2Proof/Proofs/Stops.lean ====
section
/-! PROOF. What stops the machine (60_exceptions R120, R122; 40_codec_regfile R71): a clock edge never faults and is refused for
its two requests only, and a host read is never refused and faults for its address only. -/

namespace Sys2Proof.Proofs

open Sys2Proof.Machine Sys2Proof.Claims Sys2Proof.Laws

/-! ## A clock edge -/

/-- Of all edges only a host set with a step, not under reset, has no next state (40_codec_regfile R71). -/
theorem clockEdge_answers_next_or_refused (cfg : Config) (p : Pins) (s : State) :
    (∃ s', clockEdge cfg p s = .next s') ∧ ¬ (p.rst = false ∧ p.instrValid = true ∧ p.hwValid = true) ∨
      clockEdge cfg p s = .refused .hostSetWithStep ∧ p.rst = false ∧ p.instrValid = true ∧ p.hwValid = true := by
  obtain ⟨hrst, he⟩ | ⟨hrst, hstep, hset, he⟩ | ⟨-, -, hset, he⟩ | ⟨-, hstep, -, he⟩ | ⟨-, hstep, -, he⟩ :=
    clockEdge_cases cfg p s
  · exact .inl ⟨⟨_, he⟩, by simp [hrst]⟩
  · exact .inr ⟨he, hrst, hstep, hset⟩
  · exact .inl ⟨he ▸ executeWord_answers_next p.instr s, by simp [hset]⟩
  · exact .inl ⟨⟨_, he⟩, by simp [hstep]⟩
  · exact .inl ⟨⟨_, he⟩, by simp [hstep]⟩

theorem clockEdge_ne_fault (cfg : Config) (p : Pins) (s : State) (r : Fault) : clockEdge cfg p s ≠ .fault r := by
  obtain ⟨⟨s', he⟩, -⟩ | ⟨he, -⟩ := clockEdge_answers_next_or_refused cfg p s <;> simp [he]

theorem clockEdge_eq_refused_iff (cfg : Config) (p : Pins) (s : State) (r : Refusal) :
    clockEdge cfg p s = .refused r ↔
      r = .hostSetWithStep ∧ p.rst = false ∧ p.instrValid = true ∧ p.hwValid = true := by
  obtain ⟨⟨s', he⟩, hnot⟩ | ⟨he, hboth⟩ := clockEdge_answers_next_or_refused cfg p s
  · simp [he, hnot]
  · simp [he, hboth, eq_comm]

/-! ## A host read -/

theorem hostRead_ne_refused (cfg : Config) (addr : Pair) (s : State) (r : Refusal) :
    hostRead cfg addr s ≠ .refused r := by
  obtain ⟨-, he⟩ | ⟨-, he⟩ := hostRead_cases cfg addr s <;> simp [he]

theorem hostRead_eq_fault_iff (cfg : Config) (addr : Pair) (s : State) (r : Fault) :
    hostRead cfg addr s = .fault r ↔ cfg.memSize ≤ addr.toNat ∧ r = .memFault addr := by
  obtain ⟨hlt, he⟩ | ⟨hle, he⟩ := hostRead_cases cfg addr s
  · simp [he, hlt]
  · simp [he, hle, eq_comm]

/-! ## A step -/

/-- The machine faults at a read outside the surface and nowhere else (60_exceptions R122). -/
theorem step_eq_fault_iff (s : State) (r : Fault) :
    step s = .fault r ↔
      ∃ addr rest, s.pending = .readByte addr :: rest ∧ hardware.memSize ≤ addr.toNat ∧ r = .memFault addr := by
  cases hq : s.pending with
  | nil => simp [step_nil hq]
  | cons op rest =>
    rw [step_cons hq]
    cases op with
    | clock p => simp [runDriverOp, clockEdge_ne_fault]
    | readByte addr => simp [runDriverOp, hostRead_eq_fault_iff]

/-- The machine refuses a host set with a step, not under reset, and nothing else (40_codec_regfile R71). -/
theorem step_eq_refused_iff (s : State) (r : Refusal) :
    step s = .refused r ↔
      r = .hostSetWithStep ∧ ∃ p rest, nextEdge s p rest ∧ p.rst = false ∧ p.instrValid = true ∧ p.hwValid = true := by
  cases hq : s.pending with
  | nil => simp [step_nil hq, nextEdge, hq]
  | cons op rest =>
    rw [step_cons hq]
    cases op with
    | clock p => simp [runDriverOp, clockEdge_eq_refused_iff, nextEdge, hq]
    | readByte addr => simp [runDriverOp, hostRead_ne_refused, nextEdge, hq]

/-- Settles O46: the two stops of a step, at this hardware's `MEM_SIZE`, which is 65535. -/
theorem onlyTwoCausesStopTheMachine : Obligations.OnlyTwoCausesStopTheMachine := by
  unfold Obligations.OnlyTwoCausesStopTheMachine
  exact fun s => ⟨step_eq_fault_iff s, step_eq_refused_iff s⟩

end Sys2Proof.Proofs
end

