-- ==== Sys2Proof/Proofs/Reset.lean ====
section
/-! PROOF. The reset edge, the driver's obligations, and consecutive instructions (70_reset_and_hazards R135, R137, R138,
R140). -/

namespace Sys2Proof.Proofs

open Sys2Proof.Machine Sys2Proof.Claims Sys2Proof.Laws

/-! ## A driver that keeps its obligations -/

/-- What the three obligations ask of an edge (70_reset_and_hazards R138), outside a reset. -/
theorem wellFormed_clock_iff (size : Nat) (p : Pins) :
    (DriverOp.clock p).wellFormed size = true ↔
      (p.rst = false → p.instrValid = true → p.hwValid = false ∧ wordDefined p.instr = true) := by
  simp only [DriverOp.wellFormed, Pins.exclusive, Pins.presentsDefined]
  cases p.rst <;> cases p.instrValid <;> simp

theorem wellFormed_readByte_iff (size : Nat) (addr : Pair) :
    (DriverOp.readByte addr).wellFormed size = true ↔ addr.toNat < size := decide_eq_true_iff

/-- The operation a step takes is one of those the driver answers for. -/
theorem wellFormed_of_driverBehaves {s : State} {op : DriverOp} {rest : List DriverOp} (hs : DriverBehaves s)
    (hq : s.pending = op :: rest) : op.wellFormed hardware.memSize = true :=
  hs op (hq ▸ List.mem_cons_self)

theorem step_ne_fault_of_driverBehaves {s : State} (hs : DriverBehaves s) (r : Fault) : step s ≠ .fault r := by
  intro h
  obtain ⟨addr, rest, hq, hle, -⟩ := (step_eq_fault_iff s r).1 h
  have hlt := (wellFormed_readByte_iff _ addr).1 (wellFormed_of_driverBehaves hs hq)
  exact hle.not_gt hlt

theorem step_ne_refused_of_driverBehaves {s : State} (hs : DriverBehaves s) (r : Refusal) : step s ≠ .refused r := by
  intro h
  obtain ⟨-, p, rest, hq, hrst, hstep, hset⟩ := (step_eq_refused_iff s r).1 h
  obtain ⟨hnoset, -⟩ := (wellFormed_clock_iff _ p).1 (wellFormed_of_driverBehaves hs hq) hrst hstep
  exact Bool.false_ne_true (hnoset.symm.trans hset)

theorem unimpl_of_step_of_driverBehaves {s s' : State} (hs : DriverBehaves s) (h : step s = .next s') :
    s'.out.unimpl = false := by
  refine Bool.eq_false_of_not_eq_true fun hunimpl => ?_
  obtain ⟨p, rest, hq, hrst, hstep, hreserved⟩ := (unimplShowsExactlyReservedWords s s' h).1 hunimpl
  obtain ⟨-, hdefined⟩ := (wellFormed_clock_iff _ p).1 (wellFormed_of_driverBehaves hs hq) hrst hstep
  exact Bool.false_ne_true (hreserved.symm.trans hdefined)

/-- The invariant of the run: what is left of the queue was in it. -/
theorem step_keeps_driverBehaves {s s' : State} (hs : DriverBehaves s) (h : step s = .next s') : DriverBehaves s' := by
  intro op hop
  rw [eachDriverOperationIsConsumedOnce s s' h] at hop
  exact hs op (List.mem_of_mem_tail hop)

theorem goodRun_succ_of_step {s s' : State} (h : step s = .next s') (k : Nat) :
    goodRun (k + 1) s = (!s'.out.unimpl && goodRun k s') := by rw [goodRun, h]

/-- Settles O51, by induction on the number of steps: a step of such a driver neither stops nor flags, and keeps the
invariant. -/
theorem wellBehavedDriverNeverStops : Obligations.WellBehavedDriverNeverStops := by
  unfold Obligations.WellBehavedDriverNeverStops
  intro k
  induction k with
  | zero => exact fun s _ => rfl
  | succ k ih =>
    intro s hs
    cases h : step s with
    | next s' =>
      rw [goodRun_succ_of_step h, unimpl_of_step_of_driverBehaves hs h, ih s' (step_keeps_driverBehaves hs h)]
      rfl
    | fault r => exact absurd h (step_ne_fault_of_driverBehaves hs r)
    | refused r => exact absurd h (step_ne_refused_of_driverBehaves hs r)

/-! ## Consecutive instructions -/

/-- Two states that agree on all there is are the same. -/
theorem state_eq {s u : State} (hregs : sameRegs s u) (hf : u.f = s.f) (hrest : keepsRest s u) : u = s := by
  obtain ⟨hpc, hmem, -, hpending, hout⟩ := hrest
  obtain ⟨a, b, c, d, e, h, l, f, pc, mem, pending, out⟩ := s
  obtain ⟨a', b', c', d', e', h', l', f', pc', mem', pending', out'⟩ := u
  exact State.mk.injEq .. ▸
    ⟨hregs .a, hregs .b, hregs .c, hregs .d, hregs .e, hregs .h, hregs .l, hf, hpc, hmem, hpending, hout⟩

/-- An instruction does not read the driver's queue, and passes it on. -/
theorem exec_withPending {i : Instr} {s s' : State} (h : exec i s = .next s') (q : List DriverOp) :
    exec i { s with pending := q } = .next { s' with pending := q } := by
  obtain ⟨o, t, rfl⟩ | rfl := instr_cases i
  · have hsame : sameRegs s { s with pending := q } := getReg_congr rfl
    obtain ⟨s₁, u, hs, hu, hregs, hz, hn, hh, hc⟩ :=
      exec_instrOf_agree (carryToo := True) o t hsame (fun _ => rfl) (fun _ _ => rfl)
    obtain rfl := Host.Outcome.next.inj (hs.symm.trans h)
    obtain ⟨hpc, hmem, -, -, hout⟩ := exec_keepsRest h
    obtain ⟨hpc', hmem', -, hpending', hout'⟩ := exec_keepsRest hu
    have hregs' : sameRegs { s₁ with pending := q } u := fun r => (hregs r).trans (getReg_congr rfl r)
    have hrest : keepsRest { s₁ with pending := q } u :=
      keepsRest_of_fields (hpc'.trans hpc.symm) (hmem'.trans hmem.symm) hpending' (hout'.trans hout.symm)
    rw [hu, state_eq hregs' (flags_eq hz hn hh (hc trivial)) hrest]
  · obtain rfl := Host.Outcome.next.inj ((exec_ccf s).symm.trans h)
    exact exec_ccf _

/-- The step by a defined word that the driver presents next. -/
theorem step_presentWord {w : Byte} {i : Instr} (hw : decode w = .ok i) (s : State) :
    step (presentWord w s) = exec i (showOutputs Outputs.quiet s) :=
  stepRunsTheDecodedInstruction (presentWord w s) (Pins.execute w) s.pending i rfl rfl rfl rfl hw

/-- A run of one step more, when that step does not stop. -/
theorem run_succ_of_step {s s' : State} (h : step s = .next s') (k : Nat) :
    Sys2Proof.core.run (k + 1) s = Sys2Proof.core.run k s' := by
  have hcore : Sys2Proof.core.step s = .next s' := h
  simp only [Host.Core.run, hcore]

/-- Settles O50: the first step runs `i1` with the second word still in the queue, which changes nothing else
(`exec_withPending`); the second step takes the word off and runs `i2` at the state `i1` answers. -/
theorem nextInstructionSeesAllResults : Obligations.NextInstructionSeesAllResults := by
  unfold Obligations.NextInstructionSeesAllResults
  intro s w1 w2 i1 i2 rest hq hw1 hw2
  obtain ⟨s1, hs1⟩ := exec_answers_next i1 { s with pending := rest, out := ⟨false, none⟩ }
  obtain ⟨s2, hs2⟩ := exec_answers_next i2 s1
  obtain ⟨-, -, -, rfl, hout⟩ := exec_keepsRest hs1
  have hquiet : s1.out = Outputs.quiet := hout
  have hstep1 : step s = .next (presentWord w2 s1) :=
    (stepRunsTheDecodedInstruction s (Pins.execute w1) _ i1 hq rfl rfl rfl hw1).trans (exec_withPending hs1 _)
  have hstep2 : step (presentWord w2 s1) = .next s2 := by
    rw [step_presentWord hw2, ← hquiet]
    exact hs2
  exact ⟨s1, s2, hs1, hs2, (run_succ_of_step hstep1 1).trans (run_succ_of_step hstep2 0)⟩

/-! ## The reset edge -/

theorem clockEdge_of_rst {cfg : Config} {p : Pins} (hrst : p.rst = true) (s : State) :
    clockEdge cfg p s = .next (applyReset cfg s) := by rw [clockEdge, hrst]

/-- Settles O2: the edge is `applyReset`, whose result takes only the queue from the state before. -/
theorem resetEdgeResetsEverything : Obligations.ResetEdgeResetsEverything := by
  unfold Obligations.ResetEdgeResetsEverything
  intro cfg p s hrst
  have hregs : ∀ t, getReg t (applyReset cfg s) = 0 := fun t => by cases t <;> rfl
  exact ⟨applyReset cfg s, clockEdge_of_rst hrst s, hregs, applyReset_f s cfg, applyReset_pc s cfg, applyReset_mem s cfg,
    rfl, applyReset_pending s cfg, clockEdge_of_rst hrst⟩

end Sys2Proof.Proofs
end
